-- ==== Sys2Proof/Word.lean ====
section
/-! DEFINITION. The machine's one word type, a byte, and the index of a general register (spec 00_scope R8, R10). -/

namespace Sys2Proof

/-- Registers, memory cells, FL and operand bytes are 8 bits wide and unsigned (R8, R10). -/
abbrev Byte := BitVec 8

/-- The index of one of the eight general registers (R20). -/
abbrev RegIx := Fin 8

end Sys2Proof
end

