-- ==== Sys2Proof/Machine/Flags.lean ====
section
/-! DEFINITION. FL: what CMP writes (R124) and the conditions the jumps read (R162 to R167). -/

namespace Sys2Proof.Machine

/-- The whole of FL after comparing va with vb as unsigned bytes (R124). -/
def compareFlags (va vb : Byte) : Byte :=
  if va = vb then 0b00000001 else if vb.toNat < va.toNat then 0b00000010 else 0b00000100

/-- E, bit 0 (R26). -/
def flagE (fl : Byte) : Bool := fl.getLsbD 0

/-- G, bit 1 (R26). -/
def flagG (fl : Byte) : Bool := fl.getLsbD 1

/-- L, bit 2 (R26). -/
def flagL (fl : Byte) : Bool := fl.getLsbD 2

/-- JEQ's condition (R162). -/
def condEq (fl : Byte) : Bool := flagE fl

/-- JNE's condition (R163). -/
def condNe (fl : Byte) : Bool := !flagE fl

/-- JGT's condition (R164). -/
def condGt (fl : Byte) : Bool := flagG fl

/-- JLT's condition (R165). -/
def condLt (fl : Byte) : Bool := flagL fl

/-- JGE's condition (R166). -/
def condGe (fl : Byte) : Bool := flagG fl || flagE fl

/-- JLE's condition (R167). -/
def condLe (fl : Byte) : Bool := flagL fl || flagE fl

end Sys2Proof.Machine
end

