-- ==== Sys2Proof/Config.lean ====
section
/-! DEFINITION. What is fixed for one block or left open by the spec: the names of the 35 mnemonics the
opcode map ranges over, the type of the named parameters of R9, and the free values, which have no body. -/

namespace Sys2Proof

/-- The 35 mnemonics of R83, in the order of its table. -/
inductive Mnemonic where
  | nop | hlt | ret | iret
  | push | pop | prn | pra
  | call | int | jmp | jeq | jne | jgt | jlt | jle | jge
  | inc | dec | not
  | ldi | ld | st
  | add | sub | mul | div | mod | cmp | and | or | xor | shl | shr
  | addi
  deriving DecidableEq, Repr

/-- `OPCODE_MAP` (R9, R83): the byte of each of the 34 mnemonics other than ADDI. -/
structure OpcodeMap where
  nop : Byte
  hlt : Byte
  ret : Byte
  iret : Byte
  push : Byte
  pop : Byte
  prn : Byte
  pra : Byte
  call : Byte
  int : Byte
  jmp : Byte
  jeq : Byte
  jne : Byte
  jgt : Byte
  jlt : Byte
  jle : Byte
  jge : Byte
  inc : Byte
  dec : Byte
  not : Byte
  ldi : Byte
  ld : Byte
  st : Byte
  add : Byte
  sub : Byte
  mul : Byte
  div : Byte
  mod : Byte
  cmp : Byte
  and : Byte
  or : Byte
  xor : Byte
  shl : Byte
  shr : Byte
  deriving DecidableEq, Repr

/-- The named parameters of R9, all of them. -/
structure Params where
  /-- `OPCODE_MAP`. -/
  opcodeMap : OpcodeMap
  /-- `OPC_ADDI`: the byte of ADDI (R84). -/
  opcAddi : Byte
  /-- `INT_ADVANCES_PC`: INT moves PC to the next instruction (R182). -/
  intAdvancesPc : Bool
  /-- `TIMER_LINE`: the line the timer drives (R205). -/
  timerLine : Fin 8
  /-- `KEY_LINE`: the line the keyboard drives (R205). -/
  keyLine : Fin 8
  /-- `IRET_SETS_IE`: IRET sets the interrupt-enable latch (R183). -/
  iretSetsIe : Bool
  deriving DecidableEq, Repr

/-- FREE VALUE (log entry 5): what the k-th read of one of the cells 0xF5, 0xF6, 0xF7 answers (R52, R54). -/
opaque Config.scratchDraw : Nat → BitVec 8

/-- FREE VALUE (log entry 4): the keyboard sample of cycle k, where the state does not list it (R7, R206). -/
opaque Config.keyDraw : Nat → Option (BitVec 8)

/-- FREE VALUE (log entries 4 and 22): the timer sample of cycle k, where the state does not list it (R7, R207). -/
opaque Config.tickDraw : Nat → Bool

/-- FREE VALUE (log entry 21): operand byte 1 or 2 of an instruction that has it while its opcode byte does not count it,
which only a map that breaks the layout of R83 brings about. -/
opaque Config.missingOperand : Nat → BitVec 8

/-- FREE CONSTANT (log entry 2): which of the 18 bytes that R84 admits is the `OPC_ADDI` of the machine at reset; the spec
leaves it OPEN. -/
opaque Config.addiChoice : Fin 18

end Sys2Proof
end

