-- ==== Sys2Proof/Syntax.lean ====
section
/-! DEFINITION. The instructions, one constructor per row of spec/opcode_table.json, in its order. -/

namespace Sys2Proof

/-- One instruction with its operand bytes as they stand in memory (R80): operand a first, then operand b.
A register operand keeps its whole byte, since a byte above 7 is an instruction that raises OutOfBounds when
it runs (R85, R86), not an undecodable one. -/
inductive Instr where
  | nop
  | hlt
  | ret
  | iret
  | push (a : Byte)
  | pop (a : Byte)
  | prn (a : Byte)
  | pra (a : Byte)
  | call (a : Byte)
  | int (a : Byte)
  | jmp (a : Byte)
  | jeq (a : Byte)
  | jne (a : Byte)
  | jgt (a : Byte)
  | jlt (a : Byte)
  | jle (a : Byte)
  | jge (a : Byte)
  | inc (a : Byte)
  | dec (a : Byte)
  | not (a : Byte)
  | ldi (a imm : Byte)
  | ld (a b : Byte)
  | st (a b : Byte)
  | add (a b : Byte)
  | sub (a b : Byte)
  | mul (a b : Byte)
  | div (a b : Byte)
  | mod (a b : Byte)
  | cmp (a b : Byte)
  | and (a b : Byte)
  | or (a b : Byte)
  | xor (a b : Byte)
  | shl (a b : Byte)
  | shr (a b : Byte)
  | addi (a imm : Byte)
  deriving DecidableEq, Repr

end Sys2Proof
end

