-- ==== Sys2Proof/Decode.lean ====
section
/-! DEFINITION. The encoding (spec 30_encoding): the fields of an opcode byte, the opcode map as a parameter and its
default, the decoder, total on any bytes, and the encoder. -/

namespace Sys2Proof

/-! ## The fields of an opcode byte (R81) -/

/-- NN, bits 7:6: the number of operand bytes. -/
def operandCount (op : Byte) : Nat := (op.extractLsb' 6 2).toNat

/-- A, bit 5: the instruction is executed by the ALU. -/
def aluBit (op : Byte) : Bool := op.getLsbD 5

/-- P, bit 4: the instruction sets PC itself. -/
def setsPcBit (op : Byte) : Bool := op.getLsbD 4

/-! ## The opcode map (R83, R84; log entries 1 and 2) -/

/-- `OPCODE_MAP` and `OPC_ADDI` together: the opcode byte of a mnemonic. -/
def Params.opcode (p : Params) : Mnemonic → Byte
  | .nop => p.opcodeMap.nop
  | .hlt => p.opcodeMap.hlt
  | .ret => p.opcodeMap.ret
  | .iret => p.opcodeMap.iret
  | .push => p.opcodeMap.push
  | .pop => p.opcodeMap.pop
  | .prn => p.opcodeMap.prn
  | .pra => p.opcodeMap.pra
  | .call => p.opcodeMap.call
  | .int => p.opcodeMap.int
  | .jmp => p.opcodeMap.jmp
  | .jeq => p.opcodeMap.jeq
  | .jne => p.opcodeMap.jne
  | .jgt => p.opcodeMap.jgt
  | .jlt => p.opcodeMap.jlt
  | .jle => p.opcodeMap.jle
  | .jge => p.opcodeMap.jge
  | .inc => p.opcodeMap.inc
  | .dec => p.opcodeMap.dec
  | .not => p.opcodeMap.not
  | .ldi => p.opcodeMap.ldi
  | .ld => p.opcodeMap.ld
  | .st => p.opcodeMap.st
  | .add => p.opcodeMap.add
  | .sub => p.opcodeMap.sub
  | .mul => p.opcodeMap.mul
  | .div => p.opcodeMap.div
  | .mod => p.opcodeMap.mod
  | .cmp => p.opcodeMap.cmp
  | .and => p.opcodeMap.and
  | .or => p.opcodeMap.or
  | .xor => p.opcodeMap.xor
  | .shl => p.opcodeMap.shl
  | .shr => p.opcodeMap.shr
  | .addi => p.opcAddi

/-- The 34 mnemonics of the map, in the order of R83's table. -/
def mappedMnemonics : List Mnemonic :=
  [.nop, .hlt, .ret, .iret, .push, .pop, .prn, .pra, .call, .int, .jmp, .jeq, .jne, .jgt, .jlt, .jle, .jge] ++
  [.inc, .dec, .not, .ldi, .ld, .st, .add, .sub, .mul, .div, .mod, .cmp, .and, .or, .xor, .shl, .shr]

/-- The NN column of R83's table. -/
def Mnemonic.operands : Mnemonic → Nat
  | .nop | .hlt | .ret | .iret => 0
  | .push | .pop | .prn | .pra | .call | .int | .jmp | .jeq | .jne | .jgt | .jlt | .jle | .jge => 1
  | .inc | .dec | .not => 1
  | .ldi | .ld | .st | .add | .sub | .mul | .div | .mod | .cmp | .and | .or | .xor | .shl | .shr | .addi => 2

/-- The operations the ALU performs: those of spec 41_alu, ADDI among them whatever its A bit (R84, R88, R127). -/
def Mnemonic.aluPerforms : Mnemonic → Bool
  | .add | .sub | .mul | .div | .mod | .and | .or | .xor | .not | .shl | .shr | .inc | .dec | .cmp | .addi => true
  | .nop | .hlt | .ret | .iret | .push | .pop | .prn | .pra | .call | .int => false
  | .jmp | .jeq | .jne | .jgt | .jlt | .jle | .jge | .ldi | .ld | .st => false

/-- The sets-PC column of R83's table. -/
def Mnemonic.setsPc : Mnemonic → Bool
  | .ret | .iret | .call | .int | .jmp | .jeq | .jne | .jgt | .jlt | .jle | .jge => true
  | .nop | .hlt | .push | .pop | .prn | .pra | .inc | .dec | .not | .ldi | .ld | .st | .addi => false
  | .add | .sub | .mul | .div | .mod | .cmp | .and | .or | .xor | .shl | .shr => false

/-! ## The parameters' defaults (R9; log entries 1, 2 and 3) -/

/-- The default `OPCODE_MAP`: the byte column of R83's table. -/
def OpcodeMap.defaults : OpcodeMap where
  nop := 0x00
  hlt := 0x01
  ret := 0x11
  iret := 0x13
  push := 0x45
  pop := 0x46
  prn := 0x47
  pra := 0x48
  call := 0x50
  int := 0x52
  jmp := 0x54
  jeq := 0x55
  jne := 0x56
  jgt := 0x57
  jlt := 0x58
  jle := 0x59
  jge := 0x5A
  inc := 0x65
  dec := 0x66
  not := 0x69
  ldi := 0x82
  ld := 0x83
  st := 0x84
  add := 0xA0
  sub := 0xA1
  mul := 0xA2
  div := 0xA3
  mod := 0xA4
  cmp := 0xA7
  and := 0xA8
  or := 0xAA
  xor := 0xAB
  shl := 0xAC
  shr := 0xAD

/-- The bytes R84 admits for `OPC_ADDI` under that map: bits 7:6 are 0b10, bit 4 is 0, and the byte is none of the 34. -/
def addiCandidates : List Byte :=
  [0x80, 0x81, 0x85, 0x86, 0x87, 0x88, 0x89, 0x8A, 0x8B, 0x8C, 0x8D, 0x8E, 0x8F, 0xA5, 0xA6, 0xA9, 0xAE, 0xAF]

/-- One of them, which the spec leaves OPEN. -/
def opcAddi : Byte := addiCandidates.getD Config.addiChoice.val 0

/-- The parameters the machine has at reset: the spec's defaults. -/
def Params.defaults : Params where
  opcodeMap := OpcodeMap.defaults
  opcAddi := Sys2Proof.opcAddi
  intAdvancesPc := true
  timerLine := 0
  keyLine := 1
  iretSetsIe := true

/-! ## The decoder -/

/-- The layout R84 asks of ADDI's byte: two operand bytes, PC not set. -/
def addiLayout (op : Byte) : Bool := operandCount op == 2 && !setsPcBit op

/-- Decode (R87): the mnemonic of an opcode byte, or nothing for a byte that is in no row of the map or whose bits 7:6 are
0b11.  An `OPC_ADDI` that R84 does not admit is no byte's (its constraints are imposed here). -/
def decodeOpcode (p : Params) (op : Byte) : Option Mnemonic :=
  if operandCount op = 3 then none
  else
    match mappedMnemonics.find? (fun m => p.opcode m == op) with
    | some m => some m
    | none => if addiLayout op && p.opcAddi == op then some .addi else none

/-- The instruction a mnemonic makes of its operand bytes; an operand it does not have is ignored (R83). -/
def Mnemonic.assemble (a b : Byte) : Mnemonic → Instr
  | .nop => .nop
  | .hlt => .hlt
  | .ret => .ret
  | .iret => .iret
  | .push => .push a
  | .pop => .pop a
  | .prn => .prn a
  | .pra => .pra a
  | .call => .call a
  | .int => .int a
  | .jmp => .jmp a
  | .jeq => .jeq a
  | .jne => .jne a
  | .jgt => .jgt a
  | .jlt => .jlt a
  | .jle => .jle a
  | .jge => .jge a
  | .inc => .inc a
  | .dec => .dec a
  | .not => .not a
  | .ldi => .ldi a b
  | .ld => .ld a b
  | .st => .st a b
  | .add => .add a b
  | .sub => .sub a b
  | .mul => .mul a b
  | .div => .div a b
  | .mod => .mod a b
  | .cmp => .cmp a b
  | .and => .and a b
  | .or => .or a b
  | .xor => .xor a b
  | .shl => .shl a b
  | .shr => .shr a b
  | .addi => .addi a b

/-- Why bytes are no instruction. -/
inductive DecodeError where
  /-- The opcode byte is in no row of the map (R87). -/
  | illegalInstruction (op : Byte)
  /-- The bytes end before the byte at this offset of the instruction. -/
  | missingByte (offset : Nat)
  deriving DecidableEq, Repr

/-- The operand bytes that NN asks for, and the bytes after them; one it does not ask for is no byte of these (log entry
21). -/
def takeOperands : Nat → List Byte → Except DecodeError (Byte × Byte × List Byte)
  | 0, rest => .ok (Config.missingOperand 1, Config.missingOperand 2, rest)
  | 1, a :: rest => .ok (a, Config.missingOperand 2, rest)
  | 1, [] => .error (.missingByte 1)
  | _, a :: b :: rest => .ok (a, b, rest)
  | _, [_] => .error (.missingByte 2)
  | _, [] => .error (.missingByte 1)

/-- One instruction from the front of some bytes, with the bytes after it. The opcode is judged before any operand
byte (R91); the operand count comes from the opcode byte's bits (R81, R82). -/
def decode (p : Params) : List Byte → Except DecodeError (Instr × List Byte)
  | [] => .error (.missingByte 0)
  | op :: bytes =>
    match decodeOpcode p op with
    | none => .error (.illegalInstruction op)
    | some m =>
      match takeOperands (operandCount op) bytes with
      | .error e => .error e
      | .ok (a, b, rest) => .ok (m.assemble a b, rest)

/-! ## The encoder -/

/-- The mnemonic of an instruction. -/
def Instr.mnemonic : Instr → Mnemonic
  | .nop => .nop
  | .hlt => .hlt
  | .ret => .ret
  | .iret => .iret
  | .push _ => .push
  | .pop _ => .pop
  | .prn _ => .prn
  | .pra _ => .pra
  | .call _ => .call
  | .int _ => .int
  | .jmp _ => .jmp
  | .jeq _ => .jeq
  | .jne _ => .jne
  | .jgt _ => .jgt
  | .jlt _ => .jlt
  | .jle _ => .jle
  | .jge _ => .jge
  | .inc _ => .inc
  | .dec _ => .dec
  | .not _ => .not
  | .ldi _ _ => .ldi
  | .ld _ _ => .ld
  | .st _ _ => .st
  | .add _ _ => .add
  | .sub _ _ => .sub
  | .mul _ _ => .mul
  | .div _ _ => .div
  | .mod _ _ => .mod
  | .cmp _ _ => .cmp
  | .and _ _ => .and
  | .or _ _ => .or
  | .xor _ _ => .xor
  | .shl _ _ => .shl
  | .shr _ _ => .shr
  | .addi _ _ => .addi

/-- The operand bytes of an instruction, in the order they stand in memory (R80). -/
def Instr.operandBytes : Instr → List Byte
  | .nop | .hlt | .ret | .iret => []
  | .push a | .pop a | .prn a | .pra a => [a]
  | .call a | .int a | .jmp a | .jeq a | .jne a | .jgt a | .jlt a | .jle a | .jge a => [a]
  | .inc a | .dec a | .not a => [a]
  | .ldi a imm | .addi a imm => [a, imm]
  | .ld a b | .st a b => [a, b]
  | .add a b | .sub a b | .mul a b | .div a b | .mod a b | .cmp a b => [a, b]
  | .and a b | .or a b | .xor a b | .shl a b | .shr a b => [a, b]

/-- The bytes of an instruction: its opcode byte, then its operand bytes (R80). -/
def encode (p : Params) (i : Instr) : List Byte := p.opcode i.mnemonic :: i.operandBytes

/-! ## The opcode table's numbering of bits (log entry 20) -/

/-- The three bytes from the lowest address up of the instruction whose bits are w: bits 7:0 are the first byte.
The table numbers one row, ADDI's, from its LAST byte; such a word is told by its length, since read the first way its
opcode byte does not ask for the operand bytes that nbits counts. -/
def tableBytes (nbits w : Nat) : List Byte :=
  let v := w % 2 ^ nbits
  let bytes := [BitVec.ofNat 8 v, BitVec.ofNat 8 (v / 0x100), BitVec.ofNat 8 (v / 0x10000)]
  if nbits = 24 ∧ operandCount (BitVec.ofNat 8 v) ≠ 2 then bytes.reverse else bytes

/-- The instruction the decoder reads, under the default parameters, from a word numbered as spec/opcode_table.json numbers
its bits. -/
def decodeTableWord (nbits w : Nat) : Option Instr :=
  match decode Params.defaults (tableBytes nbits w) with
  | .ok (i, _) => some i
  | .error _ => none

end Sys2Proof
end

