-- ==== Sys2Proof/Machine/State.lean ====
section
/-! DEFINITION. The state of the block as plain data, its value at reset, and the ways a step can stop (spec 10_state,
60_exceptions R200, R201). -/

namespace Sys2Proof.Machine

/-- The cells of the one address space (R50), as (address, byte) pairs; an address not listed reads as 0x00 (R35). -/
abbrev Memory := List Host.Cell

/-- The canonical form: addresses strictly rising and at most 0xFF, no entry equal to what an unlisted address reads as. -/
abbrev Memory.wf (m : Memory) : Prop :=
  m.Pairwise (fun c d => c.1 < d.1) ∧ ∀ c ∈ m, c.1 ≤ 0xFF ∧ c.2 ≠ 0#8

/-- The five fault kinds of R200. -/
inductive FaultKind where
  | illegalInstruction
  | unsupportedOperation
  | divisionByZero
  | programLoadError
  | outOfBounds
  deriving DecidableEq, Repr

/-- What a fault record says beside the kind (R200, column "info recorded"). -/
inductive FaultInfo where
  /-- The opcode byte: IllegalInstruction, UnsupportedOperation. -/
  | opcodeByte (op : Byte)
  /-- The operand bytes a, b: DivisionByZero. -/
  | operands (a b : Byte)
  /-- The offending image position: ProgramLoadError. -/
  | position (n : Nat)
  /-- The address, index or value: OutOfBounds. -/
  | value (n : Nat)
  deriving DecidableEq, Repr

/-- The fault record (R201); its code is a function of the kind (`FaultKind.code`). -/
structure FaultRecord where
  kind : FaultKind
  /-- The value of PC in the faulting cycle. -/
  pc : Nat
  /-- The opcode byte, if the cycle came to know it. -/
  opcode : Option Byte
  info : FaultInfo
  deriving DecidableEq, Repr

/-- The run state (R31). -/
inductive RunState where
  | running
  | halted
  | faulted (record : FaultRecord)
  deriving DecidableEq, Repr

/-- The kind of an output event (R32). -/
inductive OutKind where
  /-- From PRN. -/
  | num
  /-- From PRA. -/
  | chr
  deriving DecidableEq, Repr

/-- One output event (R32). -/
structure OutEvent where
  kind : OutKind
  byte : Byte
  deriving DecidableEq, Repr

/-- What one cycle sees of the outside: the keyboard sample and the timer sample (R6, R7). -/
structure Sample where
  key : Option Byte
  tick : Bool
  deriving DecidableEq, Repr

/-- The whole state of the block. -/
structure State where
  /-- R[0] to R[7]; R[5] is IM, R[6] is IS, R[7] is SP (R20, R22). -/
  regs : Vector Byte 8
  /-- FL, all eight bits (R26, R28). -/
  fl : Byte
  /-- PC, never wrapped (R24). -/
  pc : Nat
  /-- IE, the interrupt-enable latch (R30). -/
  ie : Bool
  /-- The run state (R31). -/
  run : RunState
  /-- M (R50).  What it lists at 0xF5, 0xF6 and 0xF7 is the model's choice and no read answers it (R54; log entry 29). -/
  mem : Memory
  /-- The output event sequence, oldest first (R32). -/
  out : List OutEvent
  /-- The MODEL's own (log entry 4): the samples of the cycles to come that are known, next cycle first; past its end the
  samples of every cycle are free values. -/
  inputs : List Sample
  /-- The MODEL's own (log entry 4): how many cycles have taken their samples. -/
  cycles : Nat
  /-- The MODEL's own (log entry 5): how many reads of the cells 0xF5, 0xF6, 0xF7 have been made. -/
  draws : Nat
  /-- The MODEL's own (log entry 3): the parameters of R9, which no cycle changes. -/
  params : Params
  deriving DecidableEq, Repr

/-- The machine right after reset, before a program image is loaded, with the parameters' defaults (R9, R35; log entries 3, 7, 8, 9).
R35 leaves the cells 0xF5, 0xF6 and 0xF7 unspecified: that they hold 0x00 is the model's choice (log entry 29). -/
def State.reset : State where
  regs := #v[0x00, 0x00, 0x00, 0x00, 0x00, 0x00, 0x00, 0xF4]
  fl := 0x00
  pc := 0x00
  ie := true
  run := .running
  mem := []
  out := []
  inputs := []
  cycles := 0
  draws := 0
  params := Params.defaults

/-- How a step stops with a fault. -/
inductive Fault where
  /-- Raised by `step`, and by nothing else, in a state whose run state is already Faulted: the block runs no cycle there
  (R95) and its failure is surfaced to whoever runs it (R31, R201, R202).  SAFE: the cycle that raises is itself a next
  state that holds the record and every write made before the raise, so nothing the spec gives is lost (log entry 6). -/
  | surfaced (record : FaultRecord)
  deriving DecidableEq, Repr

/-- How a step refuses. -/
inductive Refusal where
  /-- Raised by an arm of `exec` for an instruction that has no meaning yet; no arm is left that does.  SAFE. -/
  | notModelled (mnemonic : String)
  deriving DecidableEq, Repr

end Sys2Proof.Machine
end

