-- ==== Sys2Proof/Machine/Ops.lean ====
section
/-! DEFINITION. The operations every instruction is built from: memory, registers, the stack, raising a fault, the two
polls, taking an interrupt and returning from one (spec 20_memory, 60_exceptions). -/

namespace Sys2Proof.Machine

/-! ## Memory as data -/

/-- The byte of cell a; a cell not listed holds 0x00 (R35). -/
def Memory.read : Memory → Nat → Byte
  | [], _ => 0#8
  | (k, v) :: t, a => if k = a then v else Memory.read t a

/-- Puts an entry for a in front of the first entry of a higher address. -/
def Memory.insert : Memory → Nat → Byte → Memory
  | [], a, v => [(a, v)]
  | (k, w) :: t, a, v => if a < k then (a, v) :: (k, w) :: t else (k, w) :: Memory.insert t a v

/-- Cell a holds v from now on, and the form stays canonical. -/
def Memory.write (m : Memory) (a : Nat) (v : Byte) : Memory :=
  let rest := m.filter (fun c => c.1 != a)
  if v = 0#8 then rest else Memory.insert rest a v

/-! ## Registers and the other fields -/

/-- R[i] (R11, R20). -/
def State.reg (s : State) (i : RegIx) : Byte := s.regs[i]

/-- R[i] <- v (R11, R20). -/
def State.setReg (s : State) (i : RegIx) (v : Byte) : State := { s with regs := s.regs.set i v }

/-- PC <- n (R11). -/
def State.setPc (s : State) (n : Nat) : State := { s with pc := n }

/-- FL <- v. -/
def State.setFl (s : State) (v : Byte) : State := { s with fl := v }

/-- IE <- b. -/
def State.setIe (s : State) (b : Bool) : State := { s with ie := b }

/-- The run state becomes r. -/
def State.setRun (s : State) (r : RunState) : State := { s with run := r }

/-- The run state is Running. -/
def State.isRunning (s : State) : Bool := s.run == .running

/-- emit(kind, v): one event at the end of the output sequence (R12, R32). -/
def State.emit (s : State) (kind : OutKind) (v : Byte) : State := { s with out := s.out ++ [⟨kind, v⟩] }

/-- IM = R[5] (R22). -/
def State.im (s : State) : Byte := s.reg 5

/-- IS = R[6] (R22). -/
def State.is (s : State) : Byte := s.reg 6

/-- SP = R[7] (R22). -/
def State.sp (s : State) : Byte := s.reg 7

/-! ## The opcode byte of the instruction that executes (R81, R92, R94) -/

/-- The opcode byte of a mnemonic under the parameters. -/
def State.opcode (s : State) (m : Mnemonic) : Byte := s.params.opcode m

/-- Step 6: the next-sequential address, the operand count being the opcode byte's (R81, R92). -/
def State.nextPc (s : State) (m : Mnemonic) : Nat := s.pc + 1 + operandCount (s.opcode m)

/-- Step 8: t, which the instruction m left of s, with PC moved on where the opcode byte's sets-PC bit is 0 (R94). -/
def State.finish (s : State) (m : Mnemonic) (t : State) : State :=
  if setsPcBit (s.opcode m) then t else t.setPc (s.nextPc m)

/-! ## Memory accesses (R52, R53, R54) -/

/-- The cells whose every read is a draw (R54). -/
def isScratch (a : Byte) : Bool := a == 0xF5 || a == 0xF6 || a == 0xF7

/-- What a read of cell a answers: the cell, or the next draw (R52). -/
def State.peek (s : State) (a : Byte) : Byte :=
  if isScratch a then Config.scratchDraw s.draws else s.mem.read a.toNat

/-- The state after a read of cell a: only a draw is counted, a read has no other effect (R65). -/
def State.afterRead (s : State) (a : Byte) : State :=
  if isScratch a then { s with draws := s.draws + 1 } else s

/-- MemWrite(a, 1, v) for a data address, which is a byte and cannot be out of bounds (R50, R53). -/
def State.store (s : State) (a : Byte) (v : Byte) : State := { s with mem := s.mem.write a.toNat v }

/-- MemRead(a, 1) for any address (R52): the byte and the state after, or the address that is out of bounds. -/
def memRead (a : Nat) (s : State) : Except Nat (Byte × State) :=
  if 0xFF < a then .error a else .ok (s.peek (BitVec.ofNat 8 a), s.afterRead (BitVec.ofNat 8 a))

/-- MemWrite(a, 1, v) for any address (R53): the state after, or the address that is out of bounds. -/
def memWrite (a : Nat) (v : Byte) (s : State) : Except Nat State :=
  if 0xFF < a then .error a else .ok (s.store (BitVec.ofNat 8 a) v)

/-! ## The stack (R60, R61) -/

/-- Push of a byte: SP <- (SP - 1) mod 256, then M[SP] <- v. -/
def State.pushByte (s : State) (v : Byte) : State := (s.setReg 7 (s.sp - 1)).store (s.sp - 1) v

/-- Push(v) (R60): a value above 0xFF is out of bounds, before anything is written. -/
def push (v : Nat) (s : State) : Except Nat State :=
  if 0xFF < v then .error v else .ok (s.pushByte (BitVec.ofNat 8 v))

/-- The byte that Pop() answers: what a read of M[SP] answers (R61). -/
def State.popValue (s : State) : Byte := s.peek s.sp

/-- The state after Pop(): SP <- (SP + 1) mod 256 (R61). -/
def State.afterPop (s : State) : State := (s.afterRead s.sp).setReg 7 (s.sp + 1)

/-! ## Raising a fault (R200, R201, R202) -/

/-- The codes of R200. -/
def FaultKind.code : FaultKind → Nat
  | .illegalInstruction => 1
  | .unsupportedOperation => 2
  | .divisionByZero => 3
  | .programLoadError => 4
  | .outOfBounds => 5

/-- raise K(info): the run state becomes Faulted with the record; whatever was written before stays written. -/
def raise (kind : FaultKind) (opcode : Option Byte) (info : FaultInfo) (s : State) : State :=
  s.setRun (.faulted ⟨kind, s.pc, opcode, info⟩)

/-- raise OutOfBounds(v). -/
def raiseOutOfBounds (opcode : Option Byte) (v : Nat) (s : State) : State :=
  raise .outOfBounds opcode (.value v) s

/-! ## Interrupt lines and the polls (R205, R206, R207) -/

/-- The byte with bit i alone set. -/
def lineBit (i : Fin 8) : Byte := 1 <<< i.val

/-- R[6] <- R[6] | (1 << i). -/
def State.setPending (s : State) (i : Fin 8) : State := s.setReg 6 (s.is ||| lineBit i)

/-- R[6] <- R[6] & ~(1 << i). -/
def State.clearPending (s : State) (i : Fin 8) : State := s.setReg 6 (s.is &&& ~~~ lineBit i)

/-- Step 1 of a cycle (R206): a key is stored at 0xF4 and its line becomes pending, whatever IE and IM hold. -/
def pollKey (line : Fin 8) (key : Option Byte) (s : State) : State :=
  match key with
  | some k => (s.store 0xF4 k).setPending line
  | none => s

/-- Step 2 of a cycle (R207): a tick makes the timer's line pending. -/
def pollTimer (line : Fin 8) (tick : Bool) (s : State) : State :=
  if tick then s.setPending line else s

/-- The lowest line whose bit is set in a byte (R210). -/
def lowestLine (v : Byte) : Option (Fin 8) := (List.finRange 8).find? (fun i => v.getLsbD i.val)

/-- The interrupt check (R209, R210): the line to take, if interrupts are enabled and one is masked in and pending. -/
def activeLine (s : State) : Option (Fin 8) := if s.ie then lowestLine (s.im &&& s.is) else none

/-! ## Taking an interrupt and returning from one (R211, R183) -/

/-- The vector slot of line i (R57). -/
def vectorSlot (i : Fin 8) : Byte := 0xF8 + BitVec.ofNat 8 i.val

/-- Push(R[j]). -/
def State.pushReg (s : State) (j : RegIx) : State := s.pushByte (s.reg j)

/-- R[j] <- Pop(). -/
def State.popReg (s : State) (j : RegIx) : State := s.afterPop.setReg j s.popValue

/-- Push(FL), then Push(R[j]) for j from 0 to 6 (R211). -/
def State.pushContext (s : State) : State := ([0, 1, 2, 3, 4, 5, 6] : List RegIx).foldl State.pushReg (s.pushByte s.fl)

/-- FL <- Pop(). -/
def State.popFl (s : State) : State := s.afterPop.setFl s.popValue

/-- PC <- Pop(). -/
def State.popPc (s : State) : State := s.afterPop.setPc s.popValue.toNat

/-- InterruptEntry(i) (R211).  Pushing a PC above 0xFF faults, after IE and IS were written (R218). -/
def interruptEntry (i : Fin 8) (s : State) : State :=
  let s1 := (s.setIe false).clearPending i
  match push s1.pc s1 with
  | .error v => raiseOutOfBounds none v s1
  | .ok s2 =>
    let s3 := s2.pushContext
    (s3.afterRead (vectorSlot i)).setPc (s3.peek (vectorSlot i)).toNat

/-- R[j] <- Pop() for j from 6 down to 0, then FL <- Pop() and PC <- Pop(); IE <- 1 where `IRET_SETS_IE` holds (R183). -/
def interruptReturn (s : State) : State :=
  let t := (([6, 5, 4, 3, 2, 1, 0] : List RegIx).foldl State.popReg s).popFl.popPc
  if s.params.iretSetsIe then t.setIe true else t

end Sys2Proof.Machine
end

