-- ==== Sys2Proof/Machine/Operands.lean ====
section
/-! DEFINITION. The operand forms (spec 30_encoding R85, R86): a register operand byte is used whole, and one above 7
raises OutOfBounds before the instruction writes any state.  An immediate operand is the byte itself. -/

namespace Sys2Proof.Machine

/-- A step's outcome on this machine. -/
abbrev Outcome := Host.Outcome State Fault Refusal

/-- The index a byte names, if it is 0..7. -/
def index8 (b : Byte) : Option (Fin 8) := if h : b.toNat < 8 then some ⟨b.toNat, h⟩ else none

/-- The instruction m goes on with the register its operand a names, or raises OutOfBounds(a). -/
def withReg (m : Mnemonic) (a : Byte) (s : State) (k : RegIx → Outcome) : Outcome :=
  match index8 a with
  | some r => k r
  | none => .next (raiseOutOfBounds (some (s.opcode m)) a.toNat s)

/-- The instruction m goes on with the registers its operands a and b name; a is judged before b (R110, R204). -/
def withRegs (m : Mnemonic) (a b : Byte) (s : State) (k : RegIx → RegIx → Outcome) : Outcome :=
  withReg m a s fun ra => withReg m b s fun rb => k ra rb

end Sys2Proof.Machine
end

