-- ==== Sys2Proof/Machine/Alu.lean ====
section
/-! DEFINITION. The ALU instructions (spec 41_alu).  No ALU operation but CMP touches FL (R110). -/

namespace Sys2Proof.Machine

/-- R[a] <- f(va, vb), both read before the write (R110). -/
def aluBinary (m : Mnemonic) (f : Byte → Byte → Byte) (a b : Byte) (s : State) : Outcome :=
  withRegs m a b s fun ra rb => .next (s.finish m (s.setReg ra (f (s.reg ra) (s.reg rb))))

/-- R[a] <- f(va) (R110). -/
def aluUnary (m : Mnemonic) (f : Byte → Byte) (a : Byte) (s : State) : Outcome :=
  withReg m a s fun ra => .next (s.finish m (s.setReg ra (f (s.reg ra))))

/-- As aluBinary, but a zero source raises DivisionByZero(a, b) and writes nothing (R114, R115). -/
def aluDivide (m : Mnemonic) (f : Byte → Byte → Byte) (a b : Byte) (s : State) : Outcome :=
  withRegs m a b s fun ra rb =>
    if s.reg rb = 0 then .next (raise .divisionByZero (some (s.opcode m)) (.operands a b) s)
    else .next (s.finish m (s.setReg ra (f (s.reg ra) (s.reg rb))))

/-- ADD (R111). -/
def execAdd (a b : Byte) (s : State) : Outcome := aluBinary .add (fun x y => x + y) a b s

/-- SUB (R112). -/
def execSub (a b : Byte) (s : State) : Outcome := aluBinary .sub (fun x y => x - y) a b s

/-- MUL (R113): the low 8 bits of the unsigned product. -/
def execMul (a b : Byte) (s : State) : Outcome := aluBinary .mul (fun x y => x * y) a b s

/-- DIV (R114): unsigned quotient. -/
def execDiv (a b : Byte) (s : State) : Outcome := aluDivide .div (fun x y => x / y) a b s

/-- MOD (R115): unsigned remainder. -/
def execMod (a b : Byte) (s : State) : Outcome := aluDivide .mod (fun x y => x % y) a b s

/-- AND (R116). -/
def execAnd (a b : Byte) (s : State) : Outcome := aluBinary .and (fun x y => x &&& y) a b s

/-- OR (R117). -/
def execOr (a b : Byte) (s : State) : Outcome := aluBinary .or (fun x y => x ||| y) a b s

/-- XOR (R118). -/
def execXor (a b : Byte) (s : State) : Outcome := aluBinary .xor (fun x y => x ^^^ y) a b s

/-- NOT (R119). -/
def execNot (a : Byte) (s : State) : Outcome := aluUnary .not (fun x => ~~~ x) a s

/-- SHL (R120): the count is the whole byte, not reduced modulo 8. -/
def execShl (a b : Byte) (s : State) : Outcome := aluBinary .shl (fun x y => x <<< y.toNat) a b s

/-- SHR (R121): logical, the count is the whole byte. -/
def execShr (a b : Byte) (s : State) : Outcome := aluBinary .shr (fun x y => x >>> y.toNat) a b s

/-- INC (R122). -/
def execInc (a : Byte) (s : State) : Outcome := aluUnary .inc (fun x => x + 1) a s

/-- DEC (R123). -/
def execDec (a : Byte) (s : State) : Outcome := aluUnary .dec (fun x => x - 1) a s

/-- CMP (R124): the whole of FL is written, no register is. -/
def execCmp (a b : Byte) (s : State) : Outcome :=
  withRegs .cmp a b s fun ra rb => .next (s.finish .cmp (s.setFl (compareFlags (s.reg ra) (s.reg rb))))

/-- ADDI (R125). -/
def execAddi (a imm : Byte) (s : State) : Outcome := aluUnary .addi (fun x => x + imm) a s

end Sys2Proof.Machine
end

