-- ==== Sys2Proof/Machine/Control.lean ====
section
/-! DEFINITION. Jumps, CALL and RET (spec 44_control).  Each sets PC on every path (R160). -/

namespace Sys2Proof.Machine

/-- A jump through a register, taken where the condition on FL holds; else PC <- next (R160). -/
def jumpIf (m : Mnemonic) (cond : Byte → Bool) (a : Byte) (s : State) : Outcome :=
  withReg m a s fun ra => .next (s.finish m (s.setPc (if cond s.fl then (s.reg ra).toNat else s.nextPc m)))

/-- JMP (R161). -/
def execJmp (a : Byte) (s : State) : Outcome := jumpIf .jmp (fun _ => true) a s

/-- JEQ (R162). -/
def execJeq (a : Byte) (s : State) : Outcome := jumpIf .jeq condEq a s

/-- JNE (R163). -/
def execJne (a : Byte) (s : State) : Outcome := jumpIf .jne condNe a s

/-- JGT (R164). -/
def execJgt (a : Byte) (s : State) : Outcome := jumpIf .jgt condGt a s

/-- JLT (R165). -/
def execJlt (a : Byte) (s : State) : Outcome := jumpIf .jlt condLt a s

/-- JGE (R166). -/
def execJge (a : Byte) (s : State) : Outcome := jumpIf .jge condGe a s

/-- JLE (R167). -/
def execJle (a : Byte) (s : State) : Outcome := jumpIf .jle condLe a s

/-- CALL (R168): the target is read before SP changes; a return address above 0xFF faults with nothing written. -/
def execCall (a : Byte) (s : State) : Outcome :=
  withReg .call a s fun ra =>
    match push (s.pc + 2) s with
    | .error v => .next (raiseOutOfBounds (some (s.opcode .call)) v s)
    | .ok t => .next (s.finish .call (t.setPc (s.reg ra).toNat))

/-- RET (R169): PC <- Pop(). -/
def execRet (s : State) : Outcome := .next (s.finish .ret s.popPc)

end Sys2Proof.Machine
end

