-- ==== Sys2Proof/Machine/LoadStore.lean ====
section
/-! DEFINITION. LDI, LD and ST (spec 42_load_store). -/

namespace Sys2Proof.Machine

/-- LDI (R140). -/
def execLdi (a imm : Byte) (s : State) : Outcome :=
  withReg .ldi a s fun ra => .next (s.finish .ldi (s.setReg ra imm))

/-- LD (R141): R[a] <- MemRead(R[b]). -/
def execLd (a b : Byte) (s : State) : Outcome :=
  withRegs .ld a b s fun ra rb =>
    .next (s.finish .ld ((s.afterRead (s.reg rb)).setReg ra (s.peek (s.reg rb))))

/-- ST (R142): MemWrite(R[a], R[b]). -/
def execSt (a b : Byte) (s : State) : Outcome :=
  withRegs .st a b s fun ra rb => .next (s.finish .st (s.store (s.reg ra) (s.reg rb)))

end Sys2Proof.Machine
end

