-- ==== Sys2Proof/Machine/Stack.lean ====
section
/-! DEFINITION. PUSH and POP (spec 43_stack). -/

namespace Sys2Proof.Machine

/-- PUSH (R150): the register is read before SP changes, so PUSH R7 pushes the old SP. -/
def execPush (a : Byte) (s : State) : Outcome :=
  withReg .push a s fun ra => .next (s.finish .push (s.pushByte (s.reg ra)))

/-- POP (R151): the register is written last, so POP R7 leaves SP equal to the popped byte. -/
def execPop (a : Byte) (s : State) : Outcome :=
  withReg .pop a s fun ra => .next (s.finish .pop (s.popReg ra))

end Sys2Proof.Machine
end

