-- ==== Sys2Proof/Machine/System.lean ====
section
/-! DEFINITION. NOP, HLT, INT, IRET, PRN and PRA (spec 45_system). -/

namespace Sys2Proof.Machine

/-- NOP (R180). -/
def execNop (s : State) : Outcome := .next (s.finish .nop s)

/-- HLT (R181): PC moves past the HLT whatever its sets-PC bit (R90 step 7), and the run state becomes Halted. -/
def execHlt (s : State) : Outcome := .next ((s.setPc (s.nextPc .hlt)).setRun .halted)

/-- INT (R182): the line number is the register's value, one above 7 raises OutOfBounds, and the line's pending bit is set;
`INT_ADVANCES_PC` says whether PC moves on; the handler is entered by a later cycle's interrupt check. -/
def execInt (a : Byte) (s : State) : Outcome :=
  withReg .int a s fun ra =>
    match index8 (s.reg ra) with
    | none => .next (raiseOutOfBounds (some (s.opcode .int)) (s.reg ra).toNat s)
    | some line =>
      .next (s.finish .int ((s.setPending line).setPc (if s.params.intAdvancesPc then s.nextPc .int else s.pc)))

/-- IRET (R183). -/
def execIret (s : State) : Outcome := .next (s.finish .iret (interruptReturn s))

/-- PRN (R185): one NUM event. -/
def execPrn (a : Byte) (s : State) : Outcome :=
  withReg .prn a s fun ra => .next (s.finish .prn (s.emit .num (s.reg ra)))

/-- PRA (R186): one CHR event. -/
def execPra (a : Byte) (s : State) : Outcome :=
  withReg .pra a s fun ra => .next (s.finish .pra (s.emit .chr (s.reg ra)))

end Sys2Proof.Machine
end

