-- ==== Sys2Proof/Machine/Fetch.lean ====
section
/-! DEFINITION. Steps 4 and 5 of the cycle and the ALU's own refusal (spec 30_encoding R88, R90, R91, R92). -/

namespace Sys2Proof.Machine

/-- Operand byte j: read where the operand count asks for it, else nothing is read (log entry 21). -/
def fetchOperand (wanted : Bool) (j : Nat) (s : State) : Except Nat (Byte × State) :=
  if wanted then memRead (s.pc + j) s else .ok (Config.missingOperand j, s)

/-- Operand bytes a and b, in the order of their addresses (R92): both and the state after, or the address that is out
of bounds. -/
def fetchOperands (nn : Nat) (s : State) : Except Nat (Byte × Byte × State) :=
  match fetchOperand (decide (1 ≤ nn)) 1 s with
  | .error v => .error v
  | .ok (a, s1) =>
    match fetchOperand (decide (nn = 2)) 2 s1 with
    | .error v => .error v
    | .ok (b, s2) => .ok (a, b, s2)

/-- The ALU does not perform the operation that an opcode with its ALU bit set names (R88). -/
def unsupported (m : Mnemonic) (op : Byte) : Bool := aluBit op && !m.aluPerforms && m != .hlt

/-- The instruction at PC and the state after fetching it, or the Faulted state the cycle ends in.  The opcode is judged
before any operand byte is read (R91); the operand count and the ALU bit are the opcode byte's own (R81); a byte with
the ALU bit set that names no ALU operation is UnsupportedOperation (R88), but for HLT, which is dispatched first (R90
step 7).  That it comes before OutOfBounds for a register operand byte above 7, and so hides it, is the model's choice: R204
gives UnsupportedOperation no place (log entry 30). -/
def fetch (s : State) : Except State (Instr × State) :=
  match memRead s.pc s with
  | .error v => .error (raiseOutOfBounds none v s)
  | .ok (op, s1) =>
    match decodeOpcode s.params op with
    | none => .error (raise .illegalInstruction (some op) (.opcodeByte op) s1)
    | some m =>
      match fetchOperands (operandCount op) s1 with
      | .error v => .error (raiseOutOfBounds (some op) v s1)
      | .ok (a, b, s2) =>
        if unsupported m op then .error (raise .unsupportedOperation (some op) (.opcodeByte op) s2)
        else .ok (m.assemble a b, s2)

end Sys2Proof.Machine
end

