-- ==== Sys2Proof/Machine/Cycle.lean ====
section
/-! DEFINITION. One cycle of the engine (spec 30_encoding R90), and storing an instruction where the next cycle fetches. -/

namespace Sys2Proof.Machine

/-- The samples of the next cycle: the head of the list, or free values past its end, new ones each cycle (R7, R206, R207;
log entry 4). -/
def State.sample (s : State) : Sample :=
  match s.inputs with
  | i :: _ => i
  | [] => ⟨Config.keyDraw s.cycles, Config.tickDraw s.cycles⟩

/-- The state once a cycle has taken its samples. -/
def State.takeSample (s : State) : State := { s with inputs := s.inputs.tail, cycles := s.cycles + 1 }

/-- Steps 1 and 2: both polls (R206, R207). -/
def polls (i : Sample) (s : State) : State := pollTimer s.params.timerLine i.tick (pollKey s.params.keyLine i.key s)

/-- Steps 4 to 8: fetch, decode and execute the instruction at PC. -/
def runInstruction (s : State) : Outcome :=
  match fetch s with
  | .error t => .next t
  | .ok (i, t) => exec i t

/-- Step 3 and after it (R209, R213): an interrupt entry, which ends the cycle, or else one instruction. -/
def afterPolls (s : State) : Outcome :=
  match activeLine s with
  | some i => .next (interruptEntry i s)
  | none => runInstruction s

/-- One cycle with its samples, in a Running block (R90). -/
def cycle (i : Sample) (s : State) : Outcome := afterPolls (polls i s)

/-- The run state decides (R31, R95): a Running block runs one cycle; a Halted one stays as it is; a Faulted one surfaces
its failure (log entry 6). -/
def advanceMachine (s : State) : Outcome :=
  match s.run with
  | .running => cycle s.sample s.takeSample
  | .halted => .next s
  | .faulted r => .fault (.surfaced r)

/-- Bytes stored from address a up, none above 0xFF. -/
def State.storeBytes (s : State) : Nat → List Byte → State
  | _, [] => s
  | a, v :: vs => State.storeBytes (if a ≤ 0xFF then s.store (BitVec.ofNat 8 a) v else s) (a + 1) vs

end Sys2Proof.Machine
end

