-- ==== Sys2Proof/Machine/Step.lean ====
section
/-! DEFINITION. One step of the machine: one cycle of the engine. -/

namespace Sys2Proof.Machine

/-- One step (R7: the step relation takes one cycle per step). -/
def step (s : State) : Host.Outcome State Fault Refusal := advanceMachine s

/-- s with the instruction of that table word stored at PC, where the next cycle fetches, and with no key and no tick in that
cycle, so that the polls make no line pending before the fetch (log entry 19). -/
def State.withFetchWord (s : State) (nbits w : Nat) : State :=
  { s.storeBytes s.pc (tableBytes nbits w) with inputs := ⟨none, false⟩ :: s.inputs }

end Sys2Proof.Machine
end

