-- ==== Sys2Proof/Machine/Load.lean ====
section
/-! DEFINITION. The load port and what a boot leaves (spec 70_reset_and_hazards R241, R242).  Reading the text of an image
is the loader's, outside the block (R5, R97): what reaches the model is, for each line, the number it is a binary
literal of, or nothing where it is none. -/

namespace Sys2Proof.Machine

/-- `writeMemory(address, byte)` (R6, R242): the state after, or nothing where the address or the byte does not exist.  That
0xF5, 0xF6 and 0xF7 hold the byte afterwards is the model's choice (log entry 29). -/
def writeMemory (a v : Nat) (s : State) : Option State :=
  if a ≤ 0xFF ∧ v ≤ 0xFF then some (s.store (BitVec.ofNat 8 a) (BitVec.ofNat 8 v)) else none

/-- The lines of an image written from address k up; the first malformed one raises ProgramLoadError with its position
(R200, R242; log entry 18). -/
def loadLines : Nat → List (Option Nat) → State → State
  | _, [], s => s
  | k, line :: rest, s =>
    match line.bind fun v => writeMemory k v s with
    | some t => loadLines (k + 1) rest t
    | none => raise .programLoadError none (.position k) s

/-- The state before the first cycle: reset, then the image (R241).  R242 leaves what 0xF5, 0xF6 and 0xF7 then hold
unspecified: here the image's byte or 0x00, the model's choice, which no read answers (log entry 29). -/
def boot (image : List (Option Nat)) : State := loadLines 0 image State.reset

end Sys2Proof.Machine
end

