-- ==== Sys2Proof/WellFormed.lean ====
section
/-! DEFINITION. Which instructions name registers that exist (R85), and which parameters keep the layout of R83 and R84. -/

namespace Sys2Proof

/-- The register operand bytes of an instruction, operand a first. -/
def Instr.regOperands : Instr → List Byte
  | .nop | .hlt | .ret | .iret => []
  | .push a | .pop a | .prn a | .pra a => [a]
  | .call a | .int a | .jmp a | .jeq a | .jne a | .jgt a | .jlt a | .jle a | .jge a => [a]
  | .inc a | .dec a | .not a => [a]
  | .ldi a _ | .addi a _ => [a]
  | .ld a b | .st a b => [a, b]
  | .add a b | .sub a b | .mul a b | .div a b | .mod a b | .cmp a b => [a, b]
  | .and a b | .or a b | .xor a b | .shl a b | .shr a b => [a, b]

/-- Every register operand byte is a register index 0..7 (R85). -/
abbrev Instr.WellFormed (i : Instr) : Prop := ∀ r ∈ i.regOperands, r.toNat ≤ 7

/-- The 35 mnemonics. -/
def mnemonics : List Mnemonic := mappedMnemonics ++ [.addi]

/-- An opcode byte agrees with the NN, A and P columns of R83's table in the row of m; the A bit of ADDI is free (R84). -/
abbrev Mnemonic.HasLayout (m : Mnemonic) (op : Byte) : Prop :=
  operandCount op = m.operands ∧ setsPcBit op = m.setsPc ∧ (m ≠ .addi → aluBit op = m.aluPerforms)

/-- The opcode map keeps the layout of R83, `OPC_ADDI` keeps R84's, and no two of the 35 bytes are equal. -/
abbrev Params.WellFormed (p : Params) : Prop :=
  (∀ m ∈ mnemonics, m.HasLayout (p.opcode m)) ∧ (mnemonics.map p.opcode).Nodup

end Sys2Proof
end

