-- ==== Sys2Proof/Safety.lean ====
section
/-! DEFINITION. What claims about the machine are said in: the invariant of every state, when an instruction faults, and
what an instruction leaves unchanged. -/

namespace Sys2Proof.Machine

/-- What every step keeps: memory is in its canonical form, PC is one of the values R24 gives it, and the parameters keep
the layout of R83 and R84. -/
abbrev Inv (s : State) : Prop := s.mem.wf ∧ s.pc ≤ 0x102 ∧ s.params.WellFormed

/-- The run has not failed (R31). -/
def NoFault (s : State) : Prop := ∀ r, s.run ≠ .faulted r

/-- The operand byte that names register r (R96). -/
def regByte (r : RegIx) : Byte := BitVec.ofNat 8 r.val

/-! ## Frames -/

/-- Every byte of memory reads as before. -/
def SameMemory (s t : State) : Prop := ∀ a, t.mem.read a = s.mem.read a

/-- Every byte of memory reads as before, but for the one at address d. -/
def SameMemoryExcept (d : Nat) (s t : State) : Prop := ∀ a, a ≠ d → t.mem.read a = s.mem.read a

/-- Every register holds what it held, but for those named. -/
def SameRegsExcept (ds : List RegIx) (s t : State) : Prop := ∀ j, j ∉ ds → t.reg j = s.reg j

/-- The samples to come and the parameters are as before. -/
def SameOutside (s t : State) : Prop := t.inputs = s.inputs ∧ t.cycles = s.cycles ∧ t.params = s.params

/-- IE, the run state, the samples to come and the parameters are as before. -/
def SameSystem (s t : State) : Prop := t.ie = s.ie ∧ t.run = s.run ∧ SameOutside s t

/-- The frame of an instruction that changes registers among ds only, and moves PC n bytes on. -/
def ChangesOnlyRegs (ds : List RegIx) (n : Nat) (s t : State) : Prop :=
  SameRegsExcept ds s t ∧ t.pc = s.pc + n ∧ t.fl = s.fl ∧ SameMemory s t ∧ t.out = s.out ∧ t.draws = s.draws ∧ SameSystem s t

/-! ## Faults of an instruction (R203) -/

/-- The first register operand byte, operand a before b, that names no register (R86, R204). -/
def badOperand (i : Instr) : Option Byte := i.regOperands.find? (fun r => decide (7 < r.toNat))

/-- The value of the register that a well-formed operand byte names; 0 for a byte that names none. -/
def operandValue (s : State) (a : Byte) : Nat := if h : a.toNat < 8 then (s.reg ⟨a.toNat, h⟩).toNat else 0

/-- The instruction's own fault, where its register operands exist (the table of R203 below the operand rows). -/
def ownFault (i : Instr) (s : State) : Option (FaultKind × FaultInfo) :=
  match i with
  | .div a b | .mod a b => if operandValue s b = 0 then some (.divisionByZero, .operands a b) else none
  | .call _ => if 0xFF < s.pc + 2 then some (.outOfBounds, .value (s.pc + 2)) else none
  | .int a => if 7 < operandValue s a then some (.outOfBounds, .value (operandValue s a)) else none
  | _ => none

/-- What an instruction raises in a state, if it raises anything (R203, R204). -/
def expectedFault (i : Instr) (s : State) : Option (FaultKind × FaultInfo) :=
  match badOperand i with
  | some r => some (.outOfBounds, .value r.toNat)
  | none => ownFault i s

/-! ## Running code -/

/-- The state in which a Running block makes its interrupt check: its sample taken and both polls made (R90). -/
def polled (s : State) : State := polls s.sample s.takeSample

/-- The bytes of memory from address a up to 0xFF. -/
def bytesFrom (s : State) (a : Nat) : List Byte := (List.range (0x100 - a)).map fun j => s.mem.read (a + j)

/-- None of the n cells from address a up is one whose read is a draw (R54). -/
def NoScratch (a n : Nat) : Prop := ∀ j, j < n → a + j < 0xF5 ∨ 0xF7 < a + j

/-- How many of the n cells from address a up are draw cells (R54). -/
def scratchCount (a n : Nat) : Nat := ((List.range n).filter fun j => decide (0xF5 ≤ a + j ∧ a + j ≤ 0xF7)).length

/-- The byte a fetch sees at PC + j, the bytes before it having been read: the cell, or the next draw (R52, R92). -/
def fetchView (s : State) (j : Nat) : Byte :=
  if 0xF5 ≤ s.pc + j ∧ s.pc + j ≤ 0xF7 then Config.scratchDraw (s.draws + scratchCount s.pc j) else s.mem.read (s.pc + j)

/-! ## What the cells 0xF5 to 0xF7 hold cannot be seen (R54) -/

/-- Two states alike in everything but what the cells 0xF5, 0xF6 and 0xF7 hold. -/
def AgreeOffScratch (s t : State) : Prop :=
  s.regs = t.regs ∧ s.fl = t.fl ∧ s.pc = t.pc ∧ s.ie = t.ie ∧ s.run = t.run ∧ s.out = t.out ∧ s.inputs = t.inputs ∧
    s.cycles = t.cycles ∧ s.draws = t.draws ∧ s.params = t.params ∧ ∀ a, a < 0xF5 ∨ 0xF7 < a → s.mem.read a = t.mem.read a

/-- Two outcomes alike: next states that agree, or the same stop. -/
def OutcomesAgree : Outcome → Outcome → Prop
  | .next s, .next t => AgreeOffScratch s t
  | .fault p, .fault q => p = q
  | .refused p, .refused q => p = q
  | _, _ => False

end Sys2Proof.Machine
end

