-- ==== Sys2Proof/Certificates/Slice0/Obligations.lean ====
section
/-! DEFINITION. The statements for the provers, in the order of the spec's files.  `regByte r` is the operand byte that
names register r, so a statement about `regByte ra`, `regByte rb` is about every register form of the instruction, the
forms whose operands are the same register and those that name R5, R6 or R7 among them; RegisterOperandOutOfRangeFaults
says what the remaining operand bytes do.  The parameters of R9 are in the state (log entry 3), so a statement about every
state holds for every value of them; where one needs the layout of R83 and R84 it has the premise `s.params.WellFormed`,
which ResetMeetsMachineInvariant and StepKeepsMachineInvariant say is met from reset on.  The cells 0xF5, 0xF6 and 0xF7 are unspecified at all times (R35, R54): what a statement says
`mem` holds there is the model's choice (log entry 29). -/

open Sys2Proof Sys2Proof.Machine

/-! ## Reset and load (10_state, 70_reset_and_hazards) -/

/-- R35.  Only SP = 0xF4 is the source's own; the other values are the spec's decisions D12 and D19 (log entry 7).
R35 leaves the cells 0xF5 to 0xF7 unspecified: that they hold 0x00 is the model's choice (log entry 29). -/
def Obligations.ResetLeavesListedValues : Prop :=
  (∀ j : RegIx, State.reset.reg j = if j = 7 then 0xF4 else 0) ∧ State.reset.fl = 0 ∧ State.reset.pc = 0 ∧
    State.reset.ie = true ∧ State.reset.run = .running ∧ State.reset.out = [] ∧ ∀ a, State.reset.mem.read a = 0

/-- R241, R242: byte k of an image of at most 256 bytes is in cell k, every other cell holds 0x00, and nothing else
differs from reset (the spec's D19 and D26; log entries 9 and 18).  R242 leaves what the cells 0xF5 to 0xF7 hold
unspecified: that they hold the image's byte or 0x00 is the model's choice (log entry 29). -/
def Obligations.BootLoadsImageFromZero : Prop :=
  ∀ image : List Byte, image.length ≤ 0x100 → ∃ t, boot (image.map fun v => some v.toNat) = t ∧
    (∀ k, t.mem.read k = image.getD k 0) ∧ t.mem.wf ∧ t = { State.reset with mem := t.mem }

/-- R242: the first malformed line (not a binary literal, a value above 255, or the 257th line) raises ProgramLoadError
with its position.  Which images are malformed is the spec's D26, and that the position is the line's is R200's info
column. -/
def Obligations.MalformedImageRaisesLoadError : Prop :=
  ∀ (good : List Byte) (line : Option Nat) (rest : List (Option Nat)), good.length ≤ 0x100 →
    (good.length = 0x100 ∨ ∀ v, line = some v → 0xFF < v) →
    (boot ((good.map fun v => some v.toNat) ++ line :: rest)).run =
      .faulted ⟨.programLoadError, 0, none, .position good.length⟩

/-! ## Memory and the stack (20_memory) -/

/-- R52: above 0xFF the address is out of bounds; at 0xF5 to 0xF7 the answer is the next draw, whatever it is, and only
the count of draws changes; elsewhere the cell, and nothing changes (the spec's D4 and D15). -/
def Obligations.MemReadAnswersCellOrDraw : Prop :=
  ∀ (a : Nat) (s : State), memRead a s =
    if 0xFF < a then .error a
    else if 0xF5 ≤ a ∧ a ≤ 0xF7 then .ok (Config.scratchDraw s.draws, { s with draws := s.draws + 1 })
    else .ok (s.mem.read a, s)

/-- R60: a value above 0xFF is out of bounds with nothing written; else SP goes down by one modulo 256, the byte stands
at the new SP, and nothing else changes (the spec's D7 and D8). -/
def Obligations.PushWritesBelowOldTop : Prop :=
  ∀ (v : Nat) (s : State), (0xFF < v → push v s = .error v) ∧
    (v ≤ 0xFF → ∃ t, push v s = .ok t ∧ t.sp.toNat = (s.sp.toNat + 255) % 256 ∧ (t.mem.read t.sp.toNat).toNat = v ∧
      SameMemoryExcept t.sp.toNat s t ∧ SameRegsExcept [7] s t ∧ t.pc = s.pc ∧ t.fl = s.fl ∧ t.out = s.out ∧
      t.draws = s.draws ∧ SameSystem s t)

/-! ## Encoding (30_encoding) -/

/-- R80, R87: the bytes of any instruction, with any bytes after them, decode to that instruction.  This holds for every
`OPCODE_MAP` that keeps the layout of R83 and every `OPC_ADDI` that R84 admits beside it, ADDI among the instructions. -/
def Obligations.DecodeOfEncodeIsIdentity : Prop :=
  ∀ (p : Params) (i : Instr) (rest : List Byte), p.WellFormed → decode p (encode p i ++ rest) = .ok (i, rest)

/-- R87, R89: bytes decode only to the instruction whose encoding they begin with. -/
def Obligations.DecodedBytesAreItsEncoding : Prop :=
  ∀ (p : Params) (bytes rest : List Byte) (i : Instr), p.WellFormed → decode p bytes = .ok (i, rest) →
    bytes = encode p i ++ rest

/-- R81, R83, R84: under the default parameters (the spec's D1, general knowledge; log entry 1) and whichever byte `OPC_ADDI`
is, the operand count, the ALU bit and the sets-PC bit in an instruction's opcode byte say how many operand bytes it has,
whether the ALU performs it (for ADDI either) and whether it sets PC itself: the seven jumps, CALL, RET, INT and IRET do. -/
def Obligations.OpcodeBitsDescribeInstruction : Prop :=
  ∀ i : Instr, let p : Params := Params.defaults
    operandCount (p.opcode i.mnemonic) = i.operandBytes.length ∧
    (i.mnemonic ≠ .addi → aluBit (p.opcode i.mnemonic) = i.mnemonic.aluPerforms) ∧
    (setsPcBit (p.opcode i.mnemonic) = true ↔
      i.mnemonic ∈ [.ret, .iret, .call, .int, .jmp, .jeq, .jne, .jgt, .jlt, .jle, .jge])

/-- R87 under the default map of R83 (the spec's D1, general knowledge; log entry 1), whichever byte `OPC_ADDI` is: 221
bytes are illegal.  Every byte whose bits 7:6 are 0b11 is, under every map. -/
def Obligations.IllegalOpcodeBytesCounted : Prop :=
  ((List.range 256).filter fun n => (decodeOpcode Params.defaults (BitVec.ofNat 8 n)).isNone).length = 221 ∧
    ∀ (p : Params) (op : Byte), 0xC0 ≤ op.toNat → decodeOpcode p op = none

/-- A few words written out from R83's table (the spec's D1, general knowledge; log entry 1) decode to what they stand for. -/
def Obligations.TableWordsDecode : Prop :=
  let p : Params := Params.defaults
  decode p [0xA0, 0x00, 0x01] = .ok (.add 0 1, []) ∧ decode p [0x82, 0x03, 0xFF] = .ok (.ldi 3 0xFF, []) ∧
    decode p [0x45, 0x07] = .ok (.push 7, []) ∧ decode p [0x5A, 0x02] = .ok (.jge 2, []) ∧
    decode p [0x13] = .ok (.iret, []) ∧ decode p [p.opcAddi, 0x00, 0x20] = .ok (.addi 0 0x20, []) ∧
    decode p [0x02] = .error (.illegalInstruction 0x02)

/-- R90: a Running block makes both polls; if no line is to be taken and the bytes at PC, none of them one of the draw
cells, decode to an instruction, the step is `exec` of that instruction in the polled state.  `exec` itself moves PC. -/
def Obligations.StepRunsDecodedInstruction : Prop :=
  ∀ (s : State) (i : Instr) (rest : List Byte), s.run = .running → s.params.WellFormed → activeLine (polled s) = none →
    decode s.params (bytesFrom (polled s) s.pc) = .ok (i, rest) → NoScratch s.pc (encode s.params i).length →
    step s = exec i (polled s)

/-- R52, R54, R90, R91, R92 (the spec's D15, log entry 5): fetch at every PC from which three bytes exist, the draw cells
0xF5 to 0xF7 among them.  Each byte fetched is its cell or, at a draw cell, the next draw, whatever it is; only the bytes
the instruction has are read; an illegal opcode faults after one. -/
def Obligations.FetchReadsCellsOrDraws : Prop :=
  ∀ s : State, s.run = .running → s.params.WellFormed → activeLine (polled s) = none → s.pc ≤ 0xFD →
    let after (n : Nat) : State := { polled s with draws := s.draws + scratchCount s.pc n }
    let op := fetchView (polled s) 0
    match decodeOpcode s.params op with
    | none => step s = .next ((after 1).setRun (.faulted ⟨.illegalInstruction, s.pc, some op, .opcodeByte op⟩))
    | some m => step s = exec (m.assemble (fetchView (polled s) 1) (fetchView (polled s) 2)) (after (1 + m.operands))

/-- R91, R92: fetch faults.  Above 0xFF the opcode fetch is out of bounds with no opcode known; an illegal byte faults
before any operand byte is read; an operand byte above 0xFF is out of bounds with the opcode known (the spec's D4; raise: log entry 6). -/
def Obligations.FetchFaults : Prop :=
  ∀ s : State, s.run = .running → activeLine (polled s) = none →
    (0xFF < s.pc → step s = .next ((polled s).setRun (.faulted ⟨.outOfBounds, s.pc, none, .value s.pc⟩))) ∧
      (∀ op : Byte, s.pc ≤ 0xFF → NoScratch s.pc 1 → (polled s).mem.read s.pc = op →
        (decodeOpcode s.params op = none →
          step s = .next ((polled s).setRun (.faulted ⟨.illegalInstruction, s.pc, some op, .opcodeByte op⟩))) ∧
        (decodeOpcode s.params op ≠ none → 0xFF < s.pc + operandCount op →
          step s = .next ((polled s).setRun (.faulted ⟨.outOfBounds, s.pc, some op, .value 0x100⟩))))

/-- R94 with R81: an instruction whose sets-PC bit is 0 leaves PC at the next-sequential address unless it faults.  Both come
from the bits of its opcode byte, whatever the opcode map. -/
def Obligations.PcAdvancesUnlessInstructionSetsIt : Prop :=
  ∀ (i : Instr) (s t : State), exec i s = .next t → NoFault t → setsPcBit (s.params.opcode i.mnemonic) = false →
    t.pc = s.pc + 1 + operandCount (s.params.opcode i.mnemonic)

/-- R95 and R31: a Halted block stays exactly as it is, its samples unread; a Faulted one surfaces its record and has no
next state, which is the model's form of "no cycle runs" (log entry 6). -/
def Obligations.FinalStatesRunNoCycle : Prop :=
  (∀ s : State, s.run = .halted → step s = .next s) ∧
    ∀ (s : State) (r : FaultRecord), s.run = .faulted r → step s = .fault (.surfaced r)

/-! ## ALU (41_alu) -/

/-- R111, R112, R113: the result modulo 256 goes to the first operand's register and nothing else but PC changes. -/
def Obligations.AddSubMulWrapModulo256 : Prop :=
  ∀ (ra rb : RegIx) (s : State), s.params.WellFormed →
    (∃ t, exec (.add (regByte ra) (regByte rb)) s = .next t ∧ ChangesOnlyRegs [ra] 3 s t ∧
      (t.reg ra).toNat = ((s.reg ra).toNat + (s.reg rb).toNat) % 256) ∧
    (∃ t, exec (.sub (regByte ra) (regByte rb)) s = .next t ∧ ChangesOnlyRegs [ra] 3 s t ∧
      (t.reg ra).toNat = ((s.reg ra).toNat + 256 - (s.reg rb).toNat) % 256) ∧
    (∃ t, exec (.mul (regByte ra) (regByte rb)) s = .next t ∧ ChangesOnlyRegs [ra] 3 s t ∧
      (t.reg ra).toNat = ((s.reg ra).toNat * (s.reg rb).toNat) % 256)

/-- R114, R115: with a source other than 0, DIV writes the unsigned quotient and MOD the unsigned remainder. -/
def Obligations.DivModQuotientRemainder : Prop :=
  ∀ (ra rb : RegIx) (s : State), s.params.WellFormed → s.reg rb ≠ 0 →
    (∃ t, exec (.div (regByte ra) (regByte rb)) s = .next t ∧ ChangesOnlyRegs [ra] 3 s t ∧
      (t.reg ra).toNat = (s.reg ra).toNat / (s.reg rb).toNat) ∧
    (∃ t, exec (.mod (regByte ra) (regByte rb)) s = .next t ∧ ChangesOnlyRegs [ra] 3 s t ∧
      (t.reg ra).toNat = (s.reg ra).toNat % (s.reg rb).toNat)

/-- R114, R115, R200, R201: with a source of 0 both raise DivisionByZero with the operand bytes, and write nothing else.
That a raise is a next state is log entry 6. -/
def Obligations.DivModByZeroFault : Prop :=
  ∀ (ra rb : RegIx) (s : State), s.reg rb = 0 →
    exec (.div (regByte ra) (regByte rb)) s =
      .next (s.setRun (.faulted ⟨.divisionByZero, s.pc, some (s.params.opcode .div), .operands (regByte ra) (regByte rb)⟩)) ∧
    exec (.mod (regByte ra) (regByte rb)) s =
      .next (s.setRun (.faulted ⟨.divisionByZero, s.pc, some (s.params.opcode .mod), .operands (regByte ra) (regByte rb)⟩))

/-- R116 to R119: AND, OR, XOR work bit by bit; NOT gives 255 - va. -/
def Obligations.LogicWorksBitwise : Prop :=
  ∀ (ra rb : RegIx) (s : State), s.params.WellFormed →
    (∃ t, exec (.and (regByte ra) (regByte rb)) s = .next t ∧ ChangesOnlyRegs [ra] 3 s t ∧
      ∀ k, (t.reg ra).getLsbD k = ((s.reg ra).getLsbD k && (s.reg rb).getLsbD k)) ∧
    (∃ t, exec (.or (regByte ra) (regByte rb)) s = .next t ∧ ChangesOnlyRegs [ra] 3 s t ∧
      ∀ k, (t.reg ra).getLsbD k = ((s.reg ra).getLsbD k || (s.reg rb).getLsbD k)) ∧
    (∃ t, exec (.xor (regByte ra) (regByte rb)) s = .next t ∧ ChangesOnlyRegs [ra] 3 s t ∧
      ∀ k, (t.reg ra).getLsbD k = ((s.reg ra).getLsbD k ^^ (s.reg rb).getLsbD k)) ∧
    (∃ t, exec (.not (regByte ra)) s = .next t ∧ ChangesOnlyRegs [ra] 2 s t ∧ (t.reg ra).toNat = 255 - (s.reg ra).toNat)

/-- R120, R121: the whole source byte is the shift count; zeros come in; a count of 8 or more gives 0. -/
def Obligations.ShiftsTakeWholeCount : Prop :=
  ∀ (ra rb : RegIx) (s : State), s.params.WellFormed →
    (∃ t, exec (.shl (regByte ra) (regByte rb)) s = .next t ∧ ChangesOnlyRegs [ra] 3 s t ∧
      (t.reg ra).toNat = (s.reg ra).toNat * 2 ^ (s.reg rb).toNat % 256) ∧
    (∃ t, exec (.shr (regByte ra) (regByte rb)) s = .next t ∧ ChangesOnlyRegs [ra] 3 s t ∧
      (t.reg ra).toNat = (s.reg ra).toNat / 2 ^ (s.reg rb).toNat)

/-- R122, R123, R125.  ADDI's semantics are the spec's reading D2. -/
def Obligations.IncDecAddiWrapModulo256 : Prop :=
  ∀ (ra : RegIx) (imm : Byte) (s : State), s.params.WellFormed →
    (∃ t, exec (.inc (regByte ra)) s = .next t ∧ ChangesOnlyRegs [ra] 2 s t ∧
      (t.reg ra).toNat = ((s.reg ra).toNat + 1) % 256) ∧
    (∃ t, exec (.dec (regByte ra)) s = .next t ∧ ChangesOnlyRegs [ra] 2 s t ∧
      (t.reg ra).toNat = ((s.reg ra).toNat + 255) % 256) ∧
    (∃ t, exec (.addi (regByte ra) imm) s = .next t ∧ ChangesOnlyRegs [ra] 3 s t ∧
      (t.reg ra).toNat = ((s.reg ra).toNat + imm.toNat) % 256)

/-- R124: CMP writes the whole of FL and no register.  That bits 7:3 become 0 is the spec's D22 (log entry 17). -/
def Obligations.CompareSetsExactlyOneFlag : Prop :=
  ∀ (ra rb : RegIx) (s : State), s.params.WellFormed → ∃ t, exec (.cmp (regByte ra) (regByte rb)) s = .next t ∧
    t.fl.toNat = (if (s.reg ra).toNat = (s.reg rb).toNat then 1 else if (s.reg ra).toNat > (s.reg rb).toNat then 2 else 4) ∧
    SameRegsExcept [] s t ∧ t.pc = s.pc + 3 ∧ SameMemory s t ∧ t.out = s.out ∧ t.draws = s.draws ∧ SameSystem s t

/-! ## Loads and stores (42_load_store) -/

/-- R140. -/
def Obligations.LoadImmediateWritesRegister : Prop :=
  ∀ (ra : RegIx) (imm : Byte) (s : State), s.params.WellFormed → ∃ t, exec (.ldi (regByte ra) imm) s = .next t ∧
    ChangesOnlyRegs [ra] 3 s t ∧ t.reg ra = imm

/-- R141: outside the draw cells LD writes the cell's byte; from a draw cell it writes the next draw, whatever it is, and
one more draw is counted (log entry 5).  Which operand is the address is the spec's D24 (log entry 16). -/
def Obligations.LoadReadsAddressedCell : Prop :=
  ∀ (ra rb : RegIx) (s : State), s.params.WellFormed → ∃ t, exec (.ld (regByte ra) (regByte rb)) s = .next t ∧
    (if 0xF5 ≤ (s.reg rb).toNat ∧ (s.reg rb).toNat ≤ 0xF7 then
      t.reg ra = Config.scratchDraw s.draws ∧ t.draws = s.draws + 1
    else t.reg ra = s.mem.read (s.reg rb).toNat ∧ t.draws = s.draws) ∧
    SameRegsExcept [ra] s t ∧ t.pc = s.pc + 3 ∧ t.fl = s.fl ∧ SameMemory s t ∧ t.out = s.out ∧ SameSystem s t

/-- R142: ST writes the one cell its first register addresses, at every address, and no register.  Which operand is the
address is the spec's D24 (log entry 16). -/
def Obligations.StoreWritesAddressedCell : Prop :=
  ∀ (ra rb : RegIx) (s : State), s.params.WellFormed → ∃ t, exec (.st (regByte ra) (regByte rb)) s = .next t ∧
    t.mem.read (s.reg ra).toNat = s.reg rb ∧ SameMemoryExcept (s.reg ra).toNat s t ∧
    SameRegsExcept [] s t ∧ t.pc = s.pc + 3 ∧ t.fl = s.fl ∧ t.out = s.out ∧ t.draws = s.draws ∧ SameSystem s t

/-! ## The stack instructions (43_stack) -/

/-- R150: the register's value before SP changes stands below the old top (PUSH R7 pushes the old SP: the spec's D9). -/
def Obligations.PushStoresRegisterBelowTop : Prop :=
  ∀ (ra : RegIx) (s : State), s.params.WellFormed → ∃ t, exec (.push (regByte ra)) s = .next t ∧
    t.sp.toNat = (s.sp.toNat + 255) % 256 ∧ t.mem.read t.sp.toNat = s.reg ra ∧ SameMemoryExcept t.sp.toNat s t ∧
    SameRegsExcept [7] s t ∧ t.pc = s.pc + 2 ∧ t.fl = s.fl ∧ t.out = s.out ∧ t.draws = s.draws ∧ SameSystem s t

/-- R151: the byte a read of the top cell answers (a draw at 0xF5 to 0xF7, log entry 5) goes to the register last, so POP R7
leaves it in SP (the spec's D9); for every other register SP goes up by one modulo 256. -/
def Obligations.PopLoadsRegisterFromTop : Prop :=
  ∀ (ra : RegIx) (s : State), s.params.WellFormed → ∃ t, exec (.pop (regByte ra)) s = .next t ∧
    (if 0xF5 ≤ s.sp.toNat ∧ s.sp.toNat ≤ 0xF7 then t.reg ra = Config.scratchDraw s.draws ∧ t.draws = s.draws + 1
      else t.reg ra = s.mem.read s.sp.toNat ∧ t.draws = s.draws) ∧
    (ra ≠ 7 → t.sp.toNat = (s.sp.toNat + 1) % 256) ∧ SameRegsExcept [ra, 7] s t ∧ t.pc = s.pc + 2 ∧ t.fl = s.fl ∧
    SameMemory s t ∧ t.out = s.out ∧ SameSystem s t

/-- R152: a PUSH and then a POP of the same register, R7 among them, leave every register as it was, where the byte does
not land on one of the draw cells. -/
def Obligations.PushThenPopRestoresRegisters : Prop :=
  ∀ (ra : RegIx) (s : State), s.params.WellFormed → ¬ (0xF6 ≤ s.sp.toNat ∧ s.sp.toNat ≤ 0xF8) →
    ∃ t u, exec (.push (regByte ra)) s = .next t ∧ exec (.pop (regByte ra)) t = .next u ∧
      SameRegsExcept [] s u ∧ u.fl = s.fl ∧ u.pc = s.pc + 4

/-! ## Control transfer (44_control) -/

/-- R160 to R167: where the condition on FL holds PC becomes the register's value, else the next-sequential address, and
nothing else changes.  The conditions and the not-taken path are the spec's D10 and D23 (log entry 16). -/
def Obligations.JumpsFollowFlags : Prop :=
  ∀ (ra : RegIx) (s : State), s.params.WellFormed →
    let e : Prop := s.fl.toNat % 2 = 1
    let g : Prop := s.fl.toNat / 2 % 2 = 1
    let l : Prop := s.fl.toNat / 4 % 2 = 1
    let taken := Host.Outcome.next (φ := Fault) (ρ := Refusal) (s.setPc (s.reg ra).toNat)
    let notTaken := Host.Outcome.next (φ := Fault) (ρ := Refusal) (s.setPc (s.pc + 2))
    exec (.jmp (regByte ra)) s = taken ∧
      exec (.jeq (regByte ra)) s = (if e then taken else notTaken) ∧
      exec (.jne (regByte ra)) s = (if e then notTaken else taken) ∧
      exec (.jgt (regByte ra)) s = (if g then taken else notTaken) ∧
      exec (.jlt (regByte ra)) s = (if l then taken else notTaken) ∧
      exec (.jge (regByte ra)) s = (if g ∨ e then taken else notTaken) ∧
      exec (.jle (regByte ra)) s = (if l ∨ e then taken else notTaken)

/-- R168: CALL pushes PC + 2 and jumps to the register's value before the push, where the return address fits a cell (CALL R7: the
spec's D9; the wrap of SP: its D7; log entries 12 and 13). -/
def Obligations.CallPushesReturnAddress : Prop :=
  ∀ (ra : RegIx) (s : State), s.params.WellFormed → s.pc + 2 ≤ 0xFF → ∃ t, exec (.call (regByte ra)) s = .next t ∧
    t.pc = (s.reg ra).toNat ∧ t.sp.toNat = (s.sp.toNat + 255) % 256 ∧ (t.mem.read t.sp.toNat).toNat = s.pc + 2 ∧
    SameMemoryExcept t.sp.toNat s t ∧ SameRegsExcept [7] s t ∧ t.fl = s.fl ∧ t.out = s.out ∧ t.draws = s.draws ∧
    SameSystem s t

/-- R168: a return address above 0xFF raises OutOfBounds with nothing written (the spec's D8). -/
def Obligations.CallPastTopFaults : Prop :=
  ∀ (ra : RegIx) (s : State), 0xFF < s.pc + 2 →
    exec (.call (regByte ra)) s = .next (s.setRun (.faulted ⟨.outOfBounds, s.pc, some (s.params.opcode .call), .value (s.pc + 2)⟩))

/-- R169: PC becomes the byte a read of the top cell answers (a draw at 0xF5 to 0xF7, log entry 5), and SP goes up by one
modulo 256. -/
def Obligations.ReturnPopsProgramCounter : Prop :=
  ∀ s : State, s.params.WellFormed → ∃ t, exec .ret s = .next t ∧
    (if 0xF5 ≤ s.sp.toNat ∧ s.sp.toNat ≤ 0xF7 then t.pc = (Config.scratchDraw s.draws).toNat ∧ t.draws = s.draws + 1
      else t.pc = (s.mem.read s.sp.toNat).toNat ∧ t.draws = s.draws) ∧
    t.sp.toNat = (s.sp.toNat + 1) % 256 ∧ SameRegsExcept [7] s t ∧ t.fl = s.fl ∧ SameMemory s t ∧ t.out = s.out ∧
    SameSystem s t

/-- R168, R169: a CALL and then a RET come back to the instruction after the CALL with every register as it was, where the
return address does not land on one of the draw cells. -/
def Obligations.CallThenReturnComesBack : Prop :=
  ∀ (ra : RegIx) (s : State), s.params.WellFormed → s.pc + 2 ≤ 0xFF → ¬ (0xF6 ≤ s.sp.toNat ∧ s.sp.toNat ≤ 0xF8) →
    ∃ t u, exec (.call (regByte ra)) s = .next t ∧ exec .ret t = .next u ∧ u.pc = s.pc + 2 ∧ SameRegsExcept [] s u ∧
      u.fl = s.fl

/-! ## System instructions (45_system) -/

/-- R180, R181: NOP only moves PC; HLT moves PC and halts the run. -/
def Obligations.NopAdvancesAndHltHalts : Prop :=
  ∀ s : State, s.params.WellFormed → exec .nop s = .next (s.setPc (s.pc + 1)) ∧ exec .hlt s = .next ((s.setPc (s.pc + 1)).setRun .halted)

/-- R182: with a line number 0..7 in its register, INT sets that line's pending bit in R6, leaves every other bit, and
moves PC on where `INT_ADVANCES_PC` holds, as it does by default (the spec's D11; log entries 3 and 15). -/
def Obligations.IntSetsPendingBit : Prop :=
  ∀ (ra : RegIx) (s : State), s.params.WellFormed → (s.reg ra).toNat ≤ 7 → ∃ t, exec (.int (regByte ra)) s = .next t ∧
    (∀ k, k < 8 → (t.reg 6).getLsbD k = ((s.reg 6).getLsbD k || decide (k = (s.reg ra).toNat))) ∧
    ChangesOnlyRegs [6] (if s.params.intAdvancesPc then 2 else 0) s t

/-- R182: a line number above 7 raises OutOfBounds(n) with nothing written (the spec's D11). -/
def Obligations.IntLineAboveSevenFaults : Prop :=
  ∀ (ra : RegIx) (s : State), 7 < (s.reg ra).toNat →
    exec (.int (regByte ra)) s = .next (s.setRun (.faulted ⟨.outOfBounds, s.pc, some (s.params.opcode .int), .value (s.reg ra).toNat⟩))

/-- R182 and R183 under either value of `INT_ADVANCES_PC` and of `IRET_SETS_IE` (log entry 3): INT moves PC on or leaves it
where it is, IRET sets IE or leaves it as it is, and all else is the same. -/
def Obligations.ParametersChangeOnlyPcAndLatch : Prop :=
  ∀ (ra : RegIx) (s : State), s.params.WellFormed →
    let intOn : State := { s with params := { s.params with intAdvancesPc := true } }
    let intOff : State := { s with params := { s.params with intAdvancesPc := false } }
    let ieOn : State := { s with params := { s.params with iretSetsIe := true } }
    let ieOff : State := { s with params := { s.params with iretSetsIe := false } }
    ((s.reg ra).toNat ≤ 7 → ∃ t u, exec (.int (regByte ra)) intOn = .next t ∧ exec (.int (regByte ra)) intOff = .next u ∧
      t.pc = s.pc + 2 ∧ u.pc = s.pc ∧ { t with pc := u.pc, params := u.params } = u) ∧
    ∃ t u, exec .iret ieOn = .next t ∧ exec .iret ieOff = .next u ∧
      t.ie = true ∧ u.ie = s.ie ∧ { t with ie := u.ie, params := u.params } = u

/-- R183: IRET pops R6 down to R0, FL and PC, each being what a read of its cell answers in turn (draws at 0xF5 to 0xF7,
log entry 5); SP ends 9 above, IE becomes 1 where `IRET_SETS_IE` holds, as it does by default (the spec's D12; log
entries 3 and 28), memory is as it was. -/
def Obligations.IretPopsContext : Prop :=
  ∀ s : State, s.params.WellFormed → ∃ t, exec .iret s = .next t ∧
    (∀ j : RegIx, j ≠ 7 → t.reg j = (State.afterPop^[6 - j.val] s).popValue) ∧
    t.fl = (State.afterPop^[7] s).popValue ∧ t.pc = (State.afterPop^[8] s).popValue.toNat ∧
    t.sp.toNat = (s.sp.toNat + 9) % 256 ∧ t.draws = (State.afterPop^[9] s).draws ∧ t.ie = (s.params.iretSetsIe || s.ie) ∧ SameMemory s t ∧
    t.out = s.out ∧ t.run = s.run ∧ SameOutside s t

/-- R185, R186: one event at the end of the output, and nothing else but PC changes. -/
def Obligations.PrnPraEmitOneEvent : Prop :=
  ∀ (ra : RegIx) (s : State), s.params.WellFormed →
    exec (.prn (regByte ra)) s = .next { s with out := s.out ++ [⟨.num, s.reg ra⟩], pc := s.pc + 2 } ∧
    exec (.pra (regByte ra)) s = .next { s with out := s.out ++ [⟨.chr, s.reg ra⟩], pc := s.pc + 2 }

/-! ## Faults of instructions (60_exceptions) -/

/-- R86, R110, R203, R204 (the spec's D6): the first register operand byte above 7, a before b, raises OutOfBounds with that
byte before anything is written, in every instruction that has one. -/
def Obligations.RegisterOperandOutOfRangeFaults : Prop :=
  ∀ (i : Instr) (r : Byte) (s : State), badOperand i = some r →
    exec i s = .next (s.setRun (.faulted ⟨.outOfBounds, s.pc, some (s.params.opcode i.mnemonic), .value r.toNat⟩))

/-- R202, R203, R204: an instruction answers a Faulted state exactly where the table of R203 names a fault for it, the
record is R201's, and nothing but the run state was written.  That a raise is a next state is log entry 6. -/
def Obligations.InstructionFaultsExactlyAsTabled : Prop :=
  ∀ (i : Instr) (s : State), NoFault s →
    match expectedFault i s with
    | some (kind, info) => exec i s = .next (s.setRun (.faulted ⟨kind, s.pc, some (s.params.opcode i.mnemonic), info⟩))
    | none => ∃ t, exec i s = .next t ∧ NoFault t

/-- R88, R200, R201: a cycle that raises leaves PC and the record's pc at the value PC had in that cycle.  It never raises
ProgramLoadError, and UnsupportedOperation only under a map that breaks the layout of R83 (the spec's D31). -/
def Obligations.FaultRecordNamesFaultingPc : Prop :=
  ∀ (s t : State) (r : FaultRecord), s.run = .running → step s = .next t → t.run = .faulted r →
    r.pc = s.pc ∧ t.pc = s.pc ∧ r.kind ≠ .programLoadError ∧ (r.kind = .unsupportedOperation → ¬ s.params.WellFormed)

/-- R90: from every state that is not Faulted a step answers a next state.  Of a Running block that is the spec's cycle; that
a Halted block, in which no cycle runs (R95), has a next state, itself, is the model's choice (log entry 6). -/
def Obligations.UnfaultedMachineAlwaysSteps : Prop :=
  ∀ s : State, NoFault s → ∃ t, step s = .next t

/-! ## Interrupts (60_exceptions) -/

/-- R206, R207: a key is stored at 0xF4 and a tick is not; each sets its own line's bit of R6, that of `KEY_LINE` or
`TIMER_LINE` (by default 1 and 0, the spec's D13; log entry 3), and nothing else changes. -/
def Obligations.PollsStoreKeyAndSetPending : Prop :=
  ∀ (i : Sample) (s : State), ∃ t, polls i s = t ∧
    (∀ a, t.mem.read a = if a = 0xF4 then i.key.getD (s.mem.read a) else s.mem.read a) ∧
    (∀ k, k < 8 → (t.reg 6).getLsbD k = ((s.reg 6).getLsbD k || (i.tick && decide (k = s.params.timerLine.val)) ||
      (i.key.isSome && decide (k = s.params.keyLine.val)))) ∧
    SameRegsExcept [6] s t ∧ t.pc = s.pc ∧ t.fl = s.fl ∧ t.out = s.out ∧ t.draws = s.draws ∧ SameSystem s t

/-- R209, R210: after the polls of a Running block, with IE = 1 the least line whose bit is set in both R5 and R6 is entered,
the cycle ends and every other line's pending bit stays as it is; with IE = 0, or no such line, the cycle goes on to fetch
and run one instruction. -/
def Obligations.InterruptCheckTakesLowestLine : Prop :=
  ∀ s : State, s.run = .running →
    (∀ i : Fin 8, (polled s).ie = true → ((polled s).reg 5).getLsbD i = true → ((polled s).reg 6).getLsbD i = true →
      (∀ j : Fin 8, j < i → (((polled s).reg 5).getLsbD j && ((polled s).reg 6).getLsbD j) = false) →
      ∃ t, step s = .next t ∧ t = interruptEntry i (polled s) ∧
        ∀ j : Fin 8, j ≠ i → (t.reg 6).getLsbD j = ((polled s).reg 6).getLsbD j) ∧
    ((polled s).ie = false ∨ (polled s).reg 5 &&& (polled s).reg 6 = 0 → step s = runInstruction (polled s))

/-- R213: a cycle that enters an interrupt runs no instruction; unless the entry faulted, the next cycle makes its polls,
takes no interrupt and fetches the handler's first instruction.  Every cycle of a Running block is one of the two: an entry,
or one instruction at most. -/
def Obligations.EntryCycleRunsNoInstruction : Prop :=
  ∀ s : State, s.run = .running →
    (∀ i, activeLine (polled s) = some i → ∃ t, step s = .next t ∧ t = interruptEntry i (polled s) ∧
      (t.run = .running → activeLine (polled t) = none ∧ step t = runInstruction (polled t))) ∧
    (activeLine (polled s) = none → step s = runInstruction (polled s))

/-- R211, with the frame of R212: entry to line i clears IE and the line's pending bit, pushes PC, FL and R0 to R6 (R6 with
the bit cleared) below SP, and goes to the handler its vector holds AFTER the pushes; nothing else changes.  It needs a PC
that fits a cell.  IE, the vector's place and the wrap of SP are the spec's D12, D14 and D7 (log entries 28, 27, 12). -/
def Obligations.InterruptEntrySavesContext : Prop :=
  ∀ (i : Fin 8) (s : State), s.pc ≤ 0xFF → ∃ t, interruptEntry i s = t ∧ t.ie = false ∧
    (∀ k, k < 8 → (t.reg 6).getLsbD k = ((s.reg 6).getLsbD k && !decide (k = i.val))) ∧
    (t.mem.read ((s.sp.toNat + 255) % 256)).toNat = s.pc ∧ t.mem.read ((s.sp.toNat + 254) % 256) = s.fl ∧
    (∀ j : RegIx, j ≠ 7 → t.mem.read ((s.sp.toNat + 253 - j.val) % 256) = t.reg j) ∧
    t.sp.toNat = (s.sp.toNat + 247) % 256 ∧ t.pc = (t.mem.read (0xF8 + i.val)).toNat ∧
    (∀ a, (∀ n, n < 9 → a ≠ (s.sp.toNat + 247 + n) % 256) → t.mem.read a = s.mem.read a) ∧
    SameRegsExcept [6, 7] s t ∧ t.fl = s.fl ∧ t.run = s.run ∧ t.out = s.out ∧ t.draws = s.draws ∧ SameOutside s t

/-- R218: an entry with PC above 0xFF raises OutOfBounds(PC) with no opcode, after IE and the pending bit were cleared and
before any byte is pushed (the spec's D8). -/
def Obligations.InterruptEntryPastTopFaults : Prop :=
  ∀ (i : Fin 8) (s : State), 0xFF < s.pc → ∃ t, interruptEntry i s = t ∧
    t.run = .faulted ⟨.outOfBounds, s.pc, none, .value s.pc⟩ ∧ t.ie = false ∧
    (∀ k, k < 8 → (t.reg 6).getLsbD k = ((s.reg 6).getLsbD k && !decide (k = i.val))) ∧
    SameRegsExcept [6] s t ∧ SameMemory s t ∧ t.pc = s.pc ∧ t.fl = s.fl ∧ t.out = s.out ∧ t.draws = s.draws ∧ SameOutside s t

/-- R215: whatever a handler does to the registers, FL, PC and every other cell, if it leaves SP and the nine saved bytes as
entry left them, IRET restores PC, FL, SP and R0 to R5 to their values at the entry, and R6 to its value with the taken
line's bit cleared, and sets IE where `IRET_SETS_IE` holds, as it does by default.  The frame must not reach the draw cells 0xF5 to 0xF7 (log entry 5). -/
def Obligations.IretUndoesInterruptEntry : Prop :=
  ∀ (i : Fin 8) (s h : State), s.pc ≤ 0xFF → h.params.WellFormed →
    (∀ n, n < 9 → ¬ (0xF5 ≤ (s.sp.toNat + 247 + n) % 256 ∧ (s.sp.toNat + 247 + n) % 256 ≤ 0xF7)) →
    h.sp = (interruptEntry i s).sp →
    (∀ n, n < 9 → h.mem.read ((s.sp.toNat + 247 + n) % 256) = (interruptEntry i s).mem.read ((s.sp.toNat + 247 + n) % 256)) →
    ∃ t, exec .iret h = .next t ∧ t.pc = s.pc ∧ t.fl = s.fl ∧ SameRegsExcept [6] s t ∧
      (∀ k, k < 8 → (t.reg 6).getLsbD k = ((s.reg 6).getLsbD k && !decide (k = i.val))) ∧ t.ie = (h.params.iretSetsIe || h.ie)

/-! ## Rules of the whole machine -/

/-- R24, R83, R84, with the canonical form of memory: the invariant holds at reset, whichever byte `OPC_ADDI` is. -/
def Obligations.ResetMeetsMachineInvariant : Prop := Inv State.reset

/-- R24: from every state in which memory is canonical, PC is at most 0x102 and the parameters keep the layout of R83 and
R84, every step leaves it so (PC's range is the spec's D3, log entry 10). -/
def Obligations.StepKeepsMachineInvariant : Prop :=
  ∀ s t : State, Inv s → step s = .next t → Inv t

/-- R27: a step changes FL only by running a CMP or an IRET; an interrupt entry does not. -/
def Obligations.OnlyCmpAndIretChangeFlags : Prop :=
  ∀ s t : State, step s = .next t → t.fl ≠ s.fl →
    ∃ i u, fetch (polled s) = .ok (i, u) ∧ (i.mnemonic = .cmp ∨ i.mnemonic = .iret) ∧ exec i u = .next t

/-- R30, R216: a step sets IE only by running an IRET, and clears it only by entering an interrupt (the
spec's D12, log entry 28). -/
def Obligations.LatchChangesOnlyByEntryAndIret : Prop :=
  ∀ s t : State, step s = .next t →
    (s.ie = false → t.ie = true → ∃ u, fetch (polled s) = .ok (.iret, u)) ∧
    (s.ie = true → t.ie = false → ∃ i, activeLine (polled s) = some i ∧ t = interruptEntry i (polled s))

/-- R32: the output is empty after reset; a step leaves it as it is or adds one event at its end, a NUM event only by running
a PRN and a CHR event only by running a PRA. -/
def Obligations.OutputGrowsByOneEvent : Prop :=
  State.reset.out = [] ∧ ∀ s t : State, step s = .next t →
    t.out = s.out ∨ ∃ e i u, t.out = s.out ++ [e] ∧ fetch (polled s) = .ok (i, u) ∧
      exec i u = .next t ∧
      ((i.mnemonic = .prn ∧ e.kind = .num) ∨ (i.mnemonic = .pra ∧ e.kind = .chr))

/-- R31, R181: a run comes to Halted only by running a HLT, which leaves PC at the next-sequential address. -/
def Obligations.HaltReachedOnlyByHlt : Prop :=
  ∀ s t : State, s.run = .running → step s = .next t → t.run = .halted →
    ∃ u, fetch (polled s) = .ok (.hlt, u) ∧ t = (u.setPc (u.nextPc .hlt)).setRun .halted

/-- R54: what the cells 0xF5, 0xF6 and 0xF7 hold has no effect: two states that differ in nothing else step to outcomes
that differ in nothing else (the spec's D15, log entry 5). -/
def Obligations.DrawCellContentsUnobservable : Prop :=
  ∀ s t : State, AgreeOffScratch s t → OutcomesAgree (step s) (step t)

/-- R88: an opcode byte with its ALU bit set that the map gives to a mnemonic the ALU does not perform raises
UnsupportedOperation once its operand bytes were read, and nothing else is written.  HLT is dispatched before the ALU test
(R90 step 7).  Only a map that breaks the layout of R83 has such a byte (the spec's D31).  That it is so with register
operand bytes above 7 too is the model's choice, since R204 does not place this fault (log entry 30). -/
def Obligations.UnsupportedOperationRaisedOffLayout : Prop :=
  ∀ (s : State) (m : Mnemonic), s.run = .running → activeLine (polled s) = none →
    let op := (polled s).mem.read s.pc
    NoScratch s.pc (1 + operandCount op) → s.pc + operandCount op ≤ 0xFF →
    decodeOpcode s.params op = some m → aluBit op = true → m.aluPerforms = false → m ≠ .hlt →
    step s = .next ((polled s).setRun (.faulted ⟨.unsupportedOperation, s.pc, some op, .opcodeByte op⟩))

/-- R9: the parameters are those of the spec at reset (log entry 3), no step changes one, and neither does loading an
image. -/
def Obligations.ParametersNeverChange : Prop :=
  (∀ image, (boot image).params = Params.defaults) ∧ ∀ s t : State, step s = .next t → t.params = s.params

/-- R7, R206, R207: each cycle of a Running block takes one pair of samples.  Where the state lists none, the key and the
tick of cycle k are free values, so every pattern of them over all cycles is admitted, from reset on (the spec's D17; log
entries 4 and 22).  After that each instruction or entry leaves the samples to come as they are. -/
def Obligations.EveryCycleTakesItsSamples : Prop :=
  (State.reset.inputs = [] ∧ ∀ image, (boot image).inputs = [] ∧ (boot image).cycles = 0) ∧
    (∀ s : State, s.inputs = [] → s.sample = ⟨Config.keyDraw s.cycles, Config.tickDraw s.cycles⟩) ∧
    (∀ (s : State) (i : Sample) (rest : List Sample), s.inputs = i :: rest → s.sample = i) ∧
    ∀ s t : State, s.run = .running → step s = .next t → t.cycles = s.cycles + 1 ∧ t.inputs = s.inputs.tail

/-- R243: from any booted image the first cycle makes its polls, whose samples may set the two pending bits, and takes no
interrupt, since IM is 0; and as long as IM is 0 no cycle takes one, so pending bits wait in IS. -/
def Obligations.NoInterruptBeforeMaskIsSet : Prop :=
  (∀ image, let s := boot image
    s.run = .running → s.ie = true ∧ s.reg 5 = 0 ∧ s.reg 6 = 0 ∧ step s = runInstruction (polled s) ∧
      ((polled s).reg 6).getLsbD s.params.timerLine = Config.tickDraw 0 ∧
      ((polled s).reg 6).getLsbD s.params.keyLine = (Config.keyDraw 0).isSome) ∧
    ∀ s : State, s.run = .running → s.reg 5 = 0 → step s = runInstruction (polled s)
end

