-- ==== Sys2Proof/Laws/Decode.lean ====
section
/-! SUPPORT. What parameters that keep the layout of R83 and R84 give the decoder, and that the defaults keep it, whatever
the free opcode byte OPC_ADDI is. -/

namespace Sys2Proof

theorem mem_mnemonics (m : Mnemonic) : m ∈ mnemonics := by cases m <;> decide

/-- No instruction has more than two operand bytes (R81). -/
theorem Mnemonic.operands_le (m : Mnemonic) : m.operands ≤ 2 := by cases m <;> decide

/-! ## Parameters that keep the layout -/

section

variable {p : Params} (h : p.WellFormed)

include h

/-- The operand count in an opcode byte is the one R83's table gives its mnemonic. -/
theorem Params.WellFormed.operandCount_opcode (m : Mnemonic) : operandCount (p.opcode m) = m.operands :=
  (h.1 m (mem_mnemonics m)).1

/-- The sets-PC bit in an opcode byte is the one R83's table gives its mnemonic. -/
theorem Params.WellFormed.setsPcBit_opcode (m : Mnemonic) : setsPcBit (p.opcode m) = m.setsPc :=
  (h.1 m (mem_mnemonics m)).2.1

/-- The ALU bit in an opcode byte says whether the ALU performs it; ADDI's may say either. -/
theorem Params.WellFormed.aluBit_opcode {m : Mnemonic} (hm : m ≠ .addi) : aluBit (p.opcode m) = m.aluPerforms :=
  (h.1 m (mem_mnemonics m)).2.2 hm

/-- No two mnemonics share a byte. -/
theorem Params.WellFormed.opcode_inj {m n : Mnemonic} (e : p.opcode m = p.opcode n) : m = n :=
  List.inj_on_of_nodup_map h.2 (mem_mnemonics m) (mem_mnemonics n) e

/-- Every mnemonic's byte decodes to that mnemonic. -/
theorem Params.WellFormed.decodeOpcode_opcode (m : Mnemonic) : decodeOpcode p (p.opcode m) = some m := by
  have h3 : operandCount (p.opcode m) ≠ 3 := by
    have := m.operands_le
    rw [h.operandCount_opcode]; omega
  rw [decodeOpcode, if_neg h3]
  split
  next m' e =>
    have e' : p.opcode m' = p.opcode m := by simpa using List.find?_some e
    rw [h.opcode_inj e']
  next e =>
    have hm : m = .addi := by
      rw [List.find?_eq_none] at e
      have hno : m ∉ mappedMnemonics := fun hm => e m hm (by simp)
      have := mem_mnemonics m
      simpa [mnemonics, hno] using this
    subst hm
    have hl : addiLayout (p.opcode .addi) = true := by
      rw [addiLayout, h.operandCount_opcode, h.setsPcBit_opcode]; rfl
    rw [hl]
    simp [Params.opcode]

end

/-- An opcode byte decodes only to the mnemonic whose byte it is. -/
theorem opcode_of_decodeOpcode {p : Params} {op : Byte} {m : Mnemonic} (h : decodeOpcode p op = some m) :
    p.opcode m = op := by
  unfold decodeOpcode at h
  split at h
  · cases h
  split at h
  next m' e =>
    cases h
    simpa using List.find?_some e
  next =>
    split at h
    next hc =>
      cases h
      simp only [Bool.and_eq_true, beq_iff_eq] at hc
      exact hc.2
    next => cases h

/-- An opcode byte that decodes asks for at most two operand bytes, whatever the map (R81, R87). -/
theorem operandCount_of_decodeOpcode {p : Params} {op : Byte} {m : Mnemonic} (h : decodeOpcode p op = some m) :
    operandCount op ≤ 2 := by
  have h4 : operandCount op < 4 := (op.extractLsb' 6 2).isLt
  have h3 : operandCount op ≠ 3 := fun e => by simp [decodeOpcode, e] at h
  omega

/-! ## The defaults -/

/-- What holds of every byte R84 admits holds of `OPC_ADDI`. -/
theorem opcAddi_all {P : Byte → Prop} (h : ∀ c : Fin 18, P (addiCandidates.getD c.val 0)) : P opcAddi := h _

/-- The default parameters keep the layout, whichever of the 18 bytes `OPC_ADDI` is. -/
theorem Params.defaults_wellFormed : Params.defaults.WellFormed :=
  opcAddi_all (P := fun b => Params.WellFormed { Params.defaults with opcAddi := b }) (by decide)

end Sys2Proof
end

