-- ==== Sys2Proof/Laws/Memory.lean ====
section
/-! SUPPORT. Memory: a read after a write, the canonical form is kept, and equal contents are equal data. -/

namespace Sys2Proof.Machine

variable (m : Memory)

theorem Memory.read_filter_self (a : Nat) : Memory.read (m.filter fun c => c.1 != a) a = 0#8 := by
  induction m with
  | nil => rfl
  | cons c t ih =>
    by_cases h : c.1 = a
    · simpa [List.filter_cons, h] using ih
    · simpa [List.filter_cons, h, Memory.read] using ih

theorem Memory.read_filter_ne {a b : Nat} (h : b ≠ a) : Memory.read (m.filter fun c => c.1 != a) b = Memory.read m b := by
  induction m with
  | nil => rfl
  | cons c t ih =>
    by_cases hc : c.1 = a
    · have : c.1 ≠ b := fun e => h (e.symm.trans hc)
      simp [hc, Memory.read, ih, Ne.symm h]
    · simp [hc, Memory.read, ih]

theorem Memory.read_insert_ne {a b : Nat} (v : Byte) (h : b ≠ a) : Memory.read (m.insert a v) b = Memory.read m b := by
  induction m with
  | nil => simp [Memory.insert, Memory.read, Ne.symm h]
  | cons c t ih =>
    unfold Memory.insert
    split
    · simp [Memory.read, Ne.symm h]
    · simp [Memory.read, ih]

theorem Memory.read_insert_self {a : Nat} (v : Byte) (h : ∀ c ∈ m, c.1 ≠ a) : Memory.read (m.insert a v) a = v := by
  induction m with
  | nil => simp [Memory.insert, Memory.read]
  | cons c t ih =>
    obtain ⟨hc, ht⟩ := List.forall_mem_cons.1 h
    unfold Memory.insert
    split
    · simp [Memory.read]
    · simp [Memory.read, hc, ih ht]

/-- A read after a write: the cell written holds the byte, and every other cell is left alone (R53, R66). -/
theorem Memory.read_write (a b : Nat) (v : Byte) : (m.write a v).read b = if b = a then v else m.read b := by
  have habs : ∀ c ∈ m.filter (fun c => c.1 != a), c.1 ≠ a := by simp
  unfold Memory.write
  by_cases h : b = a
  · subst h
    by_cases hv : v = 0#8
    · simp [hv, Memory.read_filter_self]
    · simp [hv, Memory.read_insert_self _ v habs]
  · by_cases hv : v = 0#8
    · simp [hv, h, Memory.read_filter_ne m h]
    · simp [hv, h, Memory.read_insert_ne _ v h, Memory.read_filter_ne m h]

@[simp] theorem Memory.read_write_self (a : Nat) (v : Byte) : (m.write a v).read a = v := by
  simp [Memory.read_write]

theorem Memory.read_write_ne {a b : Nat} (v : Byte) (h : b ≠ a) : (m.write a v).read b = m.read b := by
  simp [Memory.read_write, h]

theorem Memory.mem_insert {a : Nat} {v : Byte} {c : Host.Cell} (h : c ∈ m.insert a v) : c = (a, v) ∨ c ∈ m := by
  induction m with
  | nil => simpa [Memory.insert] using h
  | cons d t ih =>
    unfold Memory.insert at h
    split at h
    · simpa using h
    · rcases List.mem_cons.1 h with rfl | h
      · simp
      · rcases ih h with h | h <;> simp [h]

theorem Memory.insert_rising {a : Nat} {v : Byte} (hm : m.Pairwise fun c d => c.1 < d.1) (h : ∀ c ∈ m, c.1 ≠ a) :
    (m.insert a v).Pairwise fun c d => c.1 < d.1 := by
  induction m with
  | nil => simp [Memory.insert]
  | cons c t ih =>
    obtain ⟨hc, ht⟩ := List.pairwise_cons.1 hm
    obtain ⟨hca, hta⟩ := List.forall_mem_cons.1 h
    unfold Memory.insert
    split
    next hlt =>
      refine List.pairwise_cons.2 ⟨?_, hm⟩
      intro d hd
      rcases List.mem_cons.1 hd with rfl | hd
      · exact hlt
      · exact Nat.lt_trans hlt (hc d hd)
    next hge =>
      refine List.pairwise_cons.2 ⟨?_, ih ht hta⟩
      intro d hd
      rcases Memory.mem_insert t hd with rfl | hd
      · have := hca; simp only at *; omega
      · exact hc d hd

/-- A write inside the address space keeps the canonical form. -/
theorem Memory.write_wf {m : Memory} (hm : m.wf) {a : Nat} (ha : a ≤ 0xFF) (v : Byte) : (m.write a v).wf := by
  have hf : (m.filter fun c => c.1 != a).Pairwise fun c d => c.1 < d.1 := hm.1.sublist List.filter_sublist
  have hin : ∀ c ∈ m.filter (fun c => c.1 != a), c.1 ≤ 0xFF ∧ c.2 ≠ 0#8 := fun c hc => hm.2 c (List.mem_of_mem_filter hc)
  unfold Memory.write
  by_cases hv : v = 0#8
  · rw [if_pos hv]; exact ⟨hf, hin⟩
  · rw [if_neg hv]
    refine ⟨Memory.insert_rising _ hf (by simp), fun c hc => ?_⟩
    rcases Memory.mem_insert _ hc with rfl | hc
    · exact ⟨ha, hv⟩
    · exact hin c hc

/-- A data address is a byte, so every store keeps the canonical form. -/
theorem Memory.write_byte_wf {m : Memory} (hm : m.wf) (a v : Byte) : (m.write a.toNat v).wf :=
  Memory.write_wf hm (by have := a.isLt; omega) v

theorem Memory.nil_wf : Memory.wf [] := by simp [Memory.wf]

theorem Memory.read_above {m : Memory} {k : Nat} (h : ∀ c ∈ m, k < c.1) : m.read k = 0#8 := by
  induction m with
  | nil => rfl
  | cons c t ih =>
    obtain ⟨hc, ht⟩ := List.forall_mem_cons.1 h
    simp [Memory.read, Nat.ne_of_gt hc, ih ht]

/-- Canonical memories that read alike are equal. -/
theorem Memory.ext {m n : Memory} (hm : m.wf) (hn : n.wf) (h : ∀ a, m.read a = n.read a) : m = n := by
  induction m generalizing n with
  | nil =>
    cases n with
    | nil => rfl
    | cons d u =>
      have := h d.1
      simp [Memory.read] at this
      exact absurd this.symm (hn.2 d (by simp)).2
  | cons c t ih =>
    obtain ⟨hc, ht⟩ := List.pairwise_cons.1 hm.1
    have hc0 := (hm.2 c (by simp)).2
    cases n with
    | nil => exact absurd (by simpa [Memory.read] using h c.1) hc0
    | cons d u =>
      obtain ⟨hd, hu⟩ := List.pairwise_cons.1 hn.1
      have hd0 := (hn.2 d (by simp)).2
      have hk : c.1 = d.1 := by
        rcases Nat.lt_trichotomy c.1 d.1 with hlt | heq | hgt
        · refine absurd ?_ hc0
          have e := h c.1
          rw [Memory.read_above (m := d :: u) (by
            intro x hx
            rcases List.mem_cons.1 hx with rfl | hx
            · exact hlt
            · exact Nat.lt_trans hlt (hd x hx))] at e
          simpa [Memory.read] using e
        · exact heq
        · refine absurd ?_ hd0
          have e := h d.1
          rw [Memory.read_above (m := c :: t) (by
            intro x hx
            rcases List.mem_cons.1 hx with rfl | hx
            · exact hgt
            · exact Nat.lt_trans hgt (hc x hx))] at e
          simpa [Memory.read] using e.symm
      have hv : c.2 = d.2 := by simpa [Memory.read, hk] using h c.1
      have htu : t = u := by
        refine ih ⟨ht, fun x hx => hm.2 x (by simp [hx])⟩ ⟨hu, fun x hx => hn.2 x (by simp [hx])⟩ fun a => ?_
        by_cases ha : c.1 = a
        · subst ha
          rw [Memory.read_above hc, Memory.read_above (by rw [hk]; exact hd)]
        · have e := h a
          simpa [Memory.read, ha, ← hk] using e
      rw [htu, Prod.ext hk hv]

end Sys2Proof.Machine
end

