-- ==== Sys2Proof/Laws/State.lean ====
section
/-! SUPPORT. One lemma per field per update of State, so that no proof unfolds a record update. -/

namespace Sys2Proof.Machine

variable (s : State)

@[simp] theorem State.setReg_regs (i : RegIx) (v : Byte) : (s.setReg i v).regs = s.regs.set i v := rfl
@[simp] theorem State.setReg_fl (i : RegIx) (v : Byte) : (s.setReg i v).fl = s.fl := rfl
@[simp] theorem State.setReg_pc (i : RegIx) (v : Byte) : (s.setReg i v).pc = s.pc := rfl
@[simp] theorem State.setReg_ie (i : RegIx) (v : Byte) : (s.setReg i v).ie = s.ie := rfl
@[simp] theorem State.setReg_run (i : RegIx) (v : Byte) : (s.setReg i v).run = s.run := rfl
@[simp] theorem State.setReg_mem (i : RegIx) (v : Byte) : (s.setReg i v).mem = s.mem := rfl
@[simp] theorem State.setReg_out (i : RegIx) (v : Byte) : (s.setReg i v).out = s.out := rfl
@[simp] theorem State.setReg_inputs (i : RegIx) (v : Byte) : (s.setReg i v).inputs = s.inputs := rfl
@[simp] theorem State.setReg_draws (i : RegIx) (v : Byte) : (s.setReg i v).draws = s.draws := rfl
@[simp] theorem State.setReg_cycles (i : RegIx) (v : Byte) : (s.setReg i v).cycles = s.cycles := rfl
@[simp] theorem State.setReg_params (i : RegIx) (v : Byte) : (s.setReg i v).params = s.params := rfl

@[simp] theorem State.setPc_regs (n : Nat) : (s.setPc n).regs = s.regs := rfl
@[simp] theorem State.setPc_fl (n : Nat) : (s.setPc n).fl = s.fl := rfl
@[simp] theorem State.setPc_pc (n : Nat) : (s.setPc n).pc = n := rfl
@[simp] theorem State.setPc_ie (n : Nat) : (s.setPc n).ie = s.ie := rfl
@[simp] theorem State.setPc_run (n : Nat) : (s.setPc n).run = s.run := rfl
@[simp] theorem State.setPc_mem (n : Nat) : (s.setPc n).mem = s.mem := rfl
@[simp] theorem State.setPc_out (n : Nat) : (s.setPc n).out = s.out := rfl
@[simp] theorem State.setPc_inputs (n : Nat) : (s.setPc n).inputs = s.inputs := rfl
@[simp] theorem State.setPc_draws (n : Nat) : (s.setPc n).draws = s.draws := rfl
@[simp] theorem State.setPc_cycles (n : Nat) : (s.setPc n).cycles = s.cycles := rfl
@[simp] theorem State.setPc_params (n : Nat) : (s.setPc n).params = s.params := rfl

@[simp] theorem State.setFl_regs (v : Byte) : (s.setFl v).regs = s.regs := rfl
@[simp] theorem State.setFl_fl (v : Byte) : (s.setFl v).fl = v := rfl
@[simp] theorem State.setFl_pc (v : Byte) : (s.setFl v).pc = s.pc := rfl
@[simp] theorem State.setFl_ie (v : Byte) : (s.setFl v).ie = s.ie := rfl
@[simp] theorem State.setFl_run (v : Byte) : (s.setFl v).run = s.run := rfl
@[simp] theorem State.setFl_mem (v : Byte) : (s.setFl v).mem = s.mem := rfl
@[simp] theorem State.setFl_out (v : Byte) : (s.setFl v).out = s.out := rfl
@[simp] theorem State.setFl_inputs (v : Byte) : (s.setFl v).inputs = s.inputs := rfl
@[simp] theorem State.setFl_draws (v : Byte) : (s.setFl v).draws = s.draws := rfl
@[simp] theorem State.setFl_cycles (v : Byte) : (s.setFl v).cycles = s.cycles := rfl
@[simp] theorem State.setFl_params (v : Byte) : (s.setFl v).params = s.params := rfl

@[simp] theorem State.setIe_regs (b : Bool) : (s.setIe b).regs = s.regs := rfl
@[simp] theorem State.setIe_fl (b : Bool) : (s.setIe b).fl = s.fl := rfl
@[simp] theorem State.setIe_pc (b : Bool) : (s.setIe b).pc = s.pc := rfl
@[simp] theorem State.setIe_ie (b : Bool) : (s.setIe b).ie = b := rfl
@[simp] theorem State.setIe_run (b : Bool) : (s.setIe b).run = s.run := rfl
@[simp] theorem State.setIe_mem (b : Bool) : (s.setIe b).mem = s.mem := rfl
@[simp] theorem State.setIe_out (b : Bool) : (s.setIe b).out = s.out := rfl
@[simp] theorem State.setIe_inputs (b : Bool) : (s.setIe b).inputs = s.inputs := rfl
@[simp] theorem State.setIe_draws (b : Bool) : (s.setIe b).draws = s.draws := rfl
@[simp] theorem State.setIe_cycles (b : Bool) : (s.setIe b).cycles = s.cycles := rfl
@[simp] theorem State.setIe_params (b : Bool) : (s.setIe b).params = s.params := rfl

@[simp] theorem State.setRun_regs (r : RunState) : (s.setRun r).regs = s.regs := rfl
@[simp] theorem State.setRun_fl (r : RunState) : (s.setRun r).fl = s.fl := rfl
@[simp] theorem State.setRun_pc (r : RunState) : (s.setRun r).pc = s.pc := rfl
@[simp] theorem State.setRun_ie (r : RunState) : (s.setRun r).ie = s.ie := rfl
@[simp] theorem State.setRun_run (r : RunState) : (s.setRun r).run = r := rfl
@[simp] theorem State.setRun_mem (r : RunState) : (s.setRun r).mem = s.mem := rfl
@[simp] theorem State.setRun_out (r : RunState) : (s.setRun r).out = s.out := rfl
@[simp] theorem State.setRun_inputs (r : RunState) : (s.setRun r).inputs = s.inputs := rfl
@[simp] theorem State.setRun_draws (r : RunState) : (s.setRun r).draws = s.draws := rfl
@[simp] theorem State.setRun_cycles (r : RunState) : (s.setRun r).cycles = s.cycles := rfl
@[simp] theorem State.setRun_params (r : RunState) : (s.setRun r).params = s.params := rfl

@[simp] theorem State.emit_regs (k : OutKind) (v : Byte) : (s.emit k v).regs = s.regs := rfl
@[simp] theorem State.emit_fl (k : OutKind) (v : Byte) : (s.emit k v).fl = s.fl := rfl
@[simp] theorem State.emit_pc (k : OutKind) (v : Byte) : (s.emit k v).pc = s.pc := rfl
@[simp] theorem State.emit_ie (k : OutKind) (v : Byte) : (s.emit k v).ie = s.ie := rfl
@[simp] theorem State.emit_run (k : OutKind) (v : Byte) : (s.emit k v).run = s.run := rfl
@[simp] theorem State.emit_mem (k : OutKind) (v : Byte) : (s.emit k v).mem = s.mem := rfl
@[simp] theorem State.emit_out (k : OutKind) (v : Byte) : (s.emit k v).out = s.out ++ [⟨k, v⟩] := rfl
@[simp] theorem State.emit_inputs (k : OutKind) (v : Byte) : (s.emit k v).inputs = s.inputs := rfl
@[simp] theorem State.emit_draws (k : OutKind) (v : Byte) : (s.emit k v).draws = s.draws := rfl
@[simp] theorem State.emit_cycles (k : OutKind) (v : Byte) : (s.emit k v).cycles = s.cycles := rfl
@[simp] theorem State.emit_params (k : OutKind) (v : Byte) : (s.emit k v).params = s.params := rfl

@[simp] theorem State.store_regs (a v : Byte) : (s.store a v).regs = s.regs := rfl
@[simp] theorem State.store_fl (a v : Byte) : (s.store a v).fl = s.fl := rfl
@[simp] theorem State.store_pc (a v : Byte) : (s.store a v).pc = s.pc := rfl
@[simp] theorem State.store_ie (a v : Byte) : (s.store a v).ie = s.ie := rfl
@[simp] theorem State.store_run (a v : Byte) : (s.store a v).run = s.run := rfl
@[simp] theorem State.store_mem (a v : Byte) : (s.store a v).mem = s.mem.write a.toNat v := rfl
@[simp] theorem State.store_out (a v : Byte) : (s.store a v).out = s.out := rfl
@[simp] theorem State.store_inputs (a v : Byte) : (s.store a v).inputs = s.inputs := rfl
@[simp] theorem State.store_draws (a v : Byte) : (s.store a v).draws = s.draws := rfl
@[simp] theorem State.store_cycles (a v : Byte) : (s.store a v).cycles = s.cycles := rfl
@[simp] theorem State.store_params (a v : Byte) : (s.store a v).params = s.params := rfl

@[simp] theorem State.takeSample_regs : (s.takeSample).regs = s.regs := rfl
@[simp] theorem State.takeSample_fl : (s.takeSample).fl = s.fl := rfl
@[simp] theorem State.takeSample_pc : (s.takeSample).pc = s.pc := rfl
@[simp] theorem State.takeSample_ie : (s.takeSample).ie = s.ie := rfl
@[simp] theorem State.takeSample_run : (s.takeSample).run = s.run := rfl
@[simp] theorem State.takeSample_mem : (s.takeSample).mem = s.mem := rfl
@[simp] theorem State.takeSample_out : (s.takeSample).out = s.out := rfl
@[simp] theorem State.takeSample_inputs : (s.takeSample).inputs = s.inputs.tail := rfl
@[simp] theorem State.takeSample_draws : (s.takeSample).draws = s.draws := rfl
@[simp] theorem State.takeSample_cycles : (s.takeSample).cycles = s.cycles + 1 := rfl
@[simp] theorem State.takeSample_params : (s.takeSample).params = s.params := rfl

@[simp] theorem State.reg_setReg_self (i : RegIx) (v : Byte) : (s.setReg i v).reg i = v := by
  simp [State.reg, State.setReg]

@[simp] theorem State.reg_setReg_ne (i j : RegIx) (v : Byte) (h : j ≠ i) : (s.setReg i v).reg j = s.reg j := by
  simp only [State.reg, State.setReg, Fin.getElem_fin]
  exact Vector.getElem_set_ne _ _ (fun e => h (Fin.ext e.symm))

theorem State.reg_setReg (i j : RegIx) (v : Byte) : (s.setReg i v).reg j = if j = i then v else s.reg j := by
  split
  next h => rw [h, State.reg_setReg_self]
  next h => exact State.reg_setReg_ne s i j v h

@[simp] theorem State.setPc_reg (n : Nat) (j : RegIx) : (s.setPc n).reg j = s.reg j := rfl
@[simp] theorem State.setFl_reg (v : Byte) (j : RegIx) : (s.setFl v).reg j = s.reg j := rfl
@[simp] theorem State.setIe_reg (b : Bool) (j : RegIx) : (s.setIe b).reg j = s.reg j := rfl
@[simp] theorem State.setRun_reg (r : RunState) (j : RegIx) : (s.setRun r).reg j = s.reg j := rfl
@[simp] theorem State.emit_reg (k : OutKind) (v : Byte) (j : RegIx) : (s.emit k v).reg j = s.reg j := rfl
@[simp] theorem State.store_reg (a v : Byte) (j : RegIx) : (s.store a v).reg j = s.reg j := rfl
@[simp] theorem State.takeSample_reg (j : RegIx) : (s.takeSample).reg j = s.reg j := rfl

/-! A pending bit is one of R6's, so setting or clearing one changes no other field (R205, R211). -/

@[simp] theorem State.setPending_fl (i : Fin 8) : (s.setPending i).fl = s.fl := rfl
@[simp] theorem State.setPending_pc (i : Fin 8) : (s.setPending i).pc = s.pc := rfl
@[simp] theorem State.setPending_ie (i : Fin 8) : (s.setPending i).ie = s.ie := rfl
@[simp] theorem State.setPending_run (i : Fin 8) : (s.setPending i).run = s.run := rfl
@[simp] theorem State.setPending_mem (i : Fin 8) : (s.setPending i).mem = s.mem := rfl
@[simp] theorem State.setPending_out (i : Fin 8) : (s.setPending i).out = s.out := rfl
@[simp] theorem State.setPending_inputs (i : Fin 8) : (s.setPending i).inputs = s.inputs := rfl
@[simp] theorem State.setPending_cycles (i : Fin 8) : (s.setPending i).cycles = s.cycles := rfl
@[simp] theorem State.setPending_draws (i : Fin 8) : (s.setPending i).draws = s.draws := rfl
@[simp] theorem State.setPending_params (i : Fin 8) : (s.setPending i).params = s.params := rfl
@[simp] theorem State.setPending_reg_ne (i : Fin 8) (j : RegIx) (h : j ≠ 6) : (s.setPending i).reg j = s.reg j :=
  State.reg_setReg_ne s 6 j _ h
@[simp] theorem State.clearPending_fl (i : Fin 8) : (s.clearPending i).fl = s.fl := rfl
@[simp] theorem State.clearPending_pc (i : Fin 8) : (s.clearPending i).pc = s.pc := rfl
@[simp] theorem State.clearPending_ie (i : Fin 8) : (s.clearPending i).ie = s.ie := rfl
@[simp] theorem State.clearPending_run (i : Fin 8) : (s.clearPending i).run = s.run := rfl
@[simp] theorem State.clearPending_mem (i : Fin 8) : (s.clearPending i).mem = s.mem := rfl
@[simp] theorem State.clearPending_out (i : Fin 8) : (s.clearPending i).out = s.out := rfl
@[simp] theorem State.clearPending_inputs (i : Fin 8) : (s.clearPending i).inputs = s.inputs := rfl
@[simp] theorem State.clearPending_cycles (i : Fin 8) : (s.clearPending i).cycles = s.cycles := rfl
@[simp] theorem State.clearPending_draws (i : Fin 8) : (s.clearPending i).draws = s.draws := rfl
@[simp] theorem State.clearPending_params (i : Fin 8) : (s.clearPending i).params = s.params := rfl
@[simp] theorem State.clearPending_reg_ne (i : Fin 8) (j : RegIx) (h : j ≠ 6) : (s.clearPending i).reg j = s.reg j :=
  State.reg_setReg_ne s 6 j _ h

/-! Step 8 moves PC, if it does anything (R94). -/

@[simp] theorem State.finish_regs (m : Mnemonic) (t : State) : (s.finish m t).regs = t.regs := by
  unfold State.finish; split <;> rfl
@[simp] theorem State.finish_fl (m : Mnemonic) (t : State) : (s.finish m t).fl = t.fl := by
  unfold State.finish; split <;> rfl
@[simp] theorem State.finish_ie (m : Mnemonic) (t : State) : (s.finish m t).ie = t.ie := by
  unfold State.finish; split <;> rfl
@[simp] theorem State.finish_run (m : Mnemonic) (t : State) : (s.finish m t).run = t.run := by
  unfold State.finish; split <;> rfl
@[simp] theorem State.finish_mem (m : Mnemonic) (t : State) : (s.finish m t).mem = t.mem := by
  unfold State.finish; split <;> rfl
@[simp] theorem State.finish_out (m : Mnemonic) (t : State) : (s.finish m t).out = t.out := by
  unfold State.finish; split <;> rfl
@[simp] theorem State.finish_inputs (m : Mnemonic) (t : State) : (s.finish m t).inputs = t.inputs := by
  unfold State.finish; split <;> rfl
@[simp] theorem State.finish_cycles (m : Mnemonic) (t : State) : (s.finish m t).cycles = t.cycles := by
  unfold State.finish; split <;> rfl
@[simp] theorem State.finish_draws (m : Mnemonic) (t : State) : (s.finish m t).draws = t.draws := by
  unfold State.finish; split <;> rfl
@[simp] theorem State.finish_params (m : Mnemonic) (t : State) : (s.finish m t).params = t.params := by
  unfold State.finish; split <;> rfl
@[simp] theorem State.finish_reg (m : Mnemonic) (t : State) (j : RegIx) : (s.finish m t).reg j = t.reg j := by
  simp [State.reg]

/-- PC is what the instruction left, or the next-sequential address. -/
theorem State.finish_pc (m : Mnemonic) (t : State) :
    (s.finish m t).pc = if setsPcBit (s.opcode m) then t.pc else s.nextPc m := by
  unfold State.finish; split <;> rfl

/-! A read changes nothing but the count of draws (R65). -/

@[simp] theorem State.afterRead_regs (a : Byte) : (s.afterRead a).regs = s.regs := by
  unfold State.afterRead; split <;> rfl
@[simp] theorem State.afterRead_fl (a : Byte) : (s.afterRead a).fl = s.fl := by
  unfold State.afterRead; split <;> rfl
@[simp] theorem State.afterRead_pc (a : Byte) : (s.afterRead a).pc = s.pc := by
  unfold State.afterRead; split <;> rfl
@[simp] theorem State.afterRead_ie (a : Byte) : (s.afterRead a).ie = s.ie := by
  unfold State.afterRead; split <;> rfl
@[simp] theorem State.afterRead_run (a : Byte) : (s.afterRead a).run = s.run := by
  unfold State.afterRead; split <;> rfl
@[simp] theorem State.afterRead_mem (a : Byte) : (s.afterRead a).mem = s.mem := by
  unfold State.afterRead; split <;> rfl
@[simp] theorem State.afterRead_out (a : Byte) : (s.afterRead a).out = s.out := by
  unfold State.afterRead; split <;> rfl
@[simp] theorem State.afterRead_inputs (a : Byte) : (s.afterRead a).inputs = s.inputs := by
  unfold State.afterRead; split <;> rfl
@[simp] theorem State.afterRead_cycles (a : Byte) : (s.afterRead a).cycles = s.cycles := by
  unfold State.afterRead; split <;> rfl
@[simp] theorem State.afterRead_params (a : Byte) : (s.afterRead a).params = s.params := by
  unfold State.afterRead; split <;> rfl
@[simp] theorem State.afterRead_reg (a : Byte) (j : RegIx) : (s.afterRead a).reg j = s.reg j := by
  simp [State.reg]
@[simp] theorem State.afterRead_draws (a : Byte) :
    (s.afterRead a).draws = s.draws + if isScratch a then 1 else 0 := by
  unfold State.afterRead; split <;> simp

/-- Two states with the same fields are the same state. -/
theorem State.ext_fields {s t : State} (h1 : ∀ j, s.reg j = t.reg j) (h2 : s.fl = t.fl) (h3 : s.pc = t.pc)
    (h4 : s.ie = t.ie) (h5 : s.run = t.run) (h6 : s.mem = t.mem) (h7 : s.out = t.out) (h8 : s.inputs = t.inputs)
    (h9 : s.draws = t.draws) (h10 : s.cycles = t.cycles) (h11 : s.params = t.params) : s = t := by
  have hr : s.regs = t.regs := Vector.ext fun i h => h1 ⟨i, h⟩
  cases s; cases t; simp_all

end Sys2Proof.Machine
end

