-- ==== Sys2Proof/Laws/Ops.lean ====
section
/-! SUPPORT. For each shared operation, what it can do, said once, so that proofs cite it and do not unfold it. -/

namespace Sys2Proof.Machine

variable (s : State)

/-! ## Operand bytes -/

theorem index8_some {a : Byte} {r : Fin 8} : index8 a = some r ↔ a.toNat = r.val := by
  unfold index8
  split
  next h => simp [Fin.ext_iff]
  next h => simp; omega

theorem index8_none {a : Byte} : index8 a = none ↔ 7 < a.toNat := by
  unfold index8
  split <;> simp <;> omega

@[simp] theorem index8_regByte (r : RegIx) : index8 (regByte r) = some r := by
  rw [index8_some]; revert r; decide

@[simp] theorem withReg_regByte (m : Mnemonic) (r : RegIx) (k : RegIx → Outcome) : withReg m (regByte r) s k = k r := by
  simp [withReg]

@[simp] theorem withRegs_regByte (m : Mnemonic) (r q : RegIx) (k : RegIx → RegIx → Outcome) :
    withRegs m (regByte r) (regByte q) s k = k r q := by
  simp [withRegs]

/-- A register operand names a register and the instruction goes on with it, or the instruction raises OutOfBounds. -/
theorem withReg_cases (m : Mnemonic) (a : Byte) (k : RegIx → Outcome) :
    (∃ r, a.toNat = r.val ∧ withReg m a s k = k r) ∨
      (7 < a.toNat ∧ withReg m a s k = .next (raiseOutOfBounds (some (s.opcode m)) a.toNat s)) := by
  unfold withReg
  cases h : index8 a with
  | some r => exact .inl ⟨r, index8_some.1 h, rfl⟩
  | none => exact .inr ⟨index8_none.1 h, rfl⟩

/-- As withReg_cases, for two register operands, a judged before b. -/
theorem withRegs_cases (m : Mnemonic) (a b : Byte) (k : RegIx → RegIx → Outcome) :
    (∃ r q, a.toNat = r.val ∧ b.toNat = q.val ∧ withRegs m a b s k = k r q) ∨
      (7 < a.toNat ∧ withRegs m a b s k = .next (raiseOutOfBounds (some (s.opcode m)) a.toNat s)) ∨
      (a.toNat ≤ 7 ∧ 7 < b.toNat ∧ withRegs m a b s k = .next (raiseOutOfBounds (some (s.opcode m)) b.toNat s)) := by
  unfold withRegs
  rcases withReg_cases s m a (fun ra => withReg m b s fun rb => k ra rb) with ⟨r, hr, h⟩ | ⟨h7, h⟩
  · rcases withReg_cases s m b (fun rb => k r rb) with ⟨q, hq, h'⟩ | ⟨h7, h'⟩
    · exact .inl ⟨r, q, hr, hq, h.trans h'⟩
    · exact .inr (.inr ⟨by omega, h7, h.trans h'⟩)
  · exact .inr (.inl ⟨h7, h⟩)

/-! ## Memory accesses -/

theorem State.peek_cell {a : Byte} (h : isScratch a = false) : s.peek a = s.mem.read a.toNat := by simp [State.peek, h]

theorem State.peek_draw {a : Byte} (h : isScratch a = true) : s.peek a = Config.scratchDraw s.draws := by
  simp [State.peek, h]

theorem State.afterRead_cell {a : Byte} (h : isScratch a = false) : s.afterRead a = s := by simp [State.afterRead, h]

theorem isScratch_iff (a : Byte) : isScratch a = true ↔ 0xF5 ≤ a.toNat ∧ a.toNat ≤ 0xF7 := by
  revert a; decide

theorem State.peek_congr {s t : State} (a : Byte) (hm : s.mem.read a.toNat = t.mem.read a.toNat) (hd : s.draws = t.draws) :
    s.peek a = t.peek a := by simp [State.peek, hm, hd]

theorem State.store_read (a v : Byte) (b : Nat) :
    (s.store a v).mem.read b = if b = a.toNat then v else s.mem.read b := Memory.read_write _ _ _ _

/-- A read of the bytes below 0x100 answers; above, its address is out of bounds. -/
theorem memRead_cases (a : Nat) :
    (a ≤ 0xFF ∧ memRead a s = .ok (s.peek (BitVec.ofNat 8 a), s.afterRead (BitVec.ofNat 8 a))) ∨
      (0xFF < a ∧ memRead a s = .error a) := by
  unfold memRead
  split
  next h => exact .inr ⟨h, rfl⟩
  next h => exact .inl ⟨by omega, rfl⟩

/-! ## The stack -/

theorem State.pushByte_reg (v : Byte) (j : RegIx) : (s.pushByte v).reg j = if j = 7 then s.sp - 1 else s.reg j := by
  simp [State.pushByte, State.reg_setReg]

@[simp] theorem State.pushByte_sp (v : Byte) : (s.pushByte v).sp = s.sp - 1 := by simp [State.sp, State.pushByte_reg]

@[simp] theorem State.pushByte_mem (v : Byte) : (s.pushByte v).mem = s.mem.write (s.sp - 1).toNat v := rfl

@[simp] theorem State.pushByte_fl (v : Byte) : (s.pushByte v).fl = s.fl := rfl

@[simp] theorem State.pushByte_pc (v : Byte) : (s.pushByte v).pc = s.pc := rfl

@[simp] theorem State.pushByte_ie (v : Byte) : (s.pushByte v).ie = s.ie := rfl

@[simp] theorem State.pushByte_run (v : Byte) : (s.pushByte v).run = s.run := rfl

@[simp] theorem State.pushByte_out (v : Byte) : (s.pushByte v).out = s.out := rfl

@[simp] theorem State.pushByte_inputs (v : Byte) : (s.pushByte v).inputs = s.inputs := rfl

@[simp] theorem State.pushByte_draws (v : Byte) : (s.pushByte v).draws = s.draws := rfl

@[simp] theorem State.pushByte_cycles (v : Byte) : (s.pushByte v).cycles = s.cycles := rfl

@[simp] theorem State.pushByte_params (v : Byte) : (s.pushByte v).params = s.params := rfl

/-- A value that fits a cell is pushed; a greater one is out of bounds. -/
theorem push_cases (v : Nat) :
    (v ≤ 0xFF ∧ push v s = .ok (s.pushByte (BitVec.ofNat 8 v))) ∨ (0xFF < v ∧ push v s = .error v) := by
  unfold push
  split
  next h => exact .inr ⟨h, rfl⟩
  next h => exact .inl ⟨by omega, rfl⟩

theorem State.afterPop_reg (j : RegIx) : s.afterPop.reg j = if j = 7 then s.sp + 1 else s.reg j := by
  simp [State.afterPop, State.reg_setReg]

@[simp] theorem State.afterPop_sp : s.afterPop.sp = s.sp + 1 := by simp [State.sp, State.afterPop_reg]

@[simp] theorem State.afterPop_mem : s.afterPop.mem = s.mem := by simp [State.afterPop]

@[simp] theorem State.afterPop_fl : s.afterPop.fl = s.fl := by simp [State.afterPop]

@[simp] theorem State.afterPop_pc : s.afterPop.pc = s.pc := by simp [State.afterPop]

@[simp] theorem State.afterPop_ie : s.afterPop.ie = s.ie := by simp [State.afterPop]

@[simp] theorem State.afterPop_run : s.afterPop.run = s.run := by simp [State.afterPop]

@[simp] theorem State.afterPop_out : s.afterPop.out = s.out := by simp [State.afterPop]

@[simp] theorem State.afterPop_inputs : s.afterPop.inputs = s.inputs := by simp [State.afterPop]

@[simp] theorem State.afterPop_cycles : s.afterPop.cycles = s.cycles := by simp [State.afterPop]

@[simp] theorem State.afterPop_params : s.afterPop.params = s.params := by simp [State.afterPop]

@[simp] theorem State.afterPop_draws : s.afterPop.draws = s.draws + if isScratch s.sp then 1 else 0 := by
  simp [State.afterPop]

/-! ## The instruction's own opcode byte -/

/-- Where the parameters keep the layout, the next-sequential address is past the operands R83 gives the mnemonic. -/
theorem State.nextPc_eq {s : State} (h : s.params.WellFormed) (m : Mnemonic) : s.nextPc m = s.pc + 1 + m.operands := by
  rw [State.nextPc, State.opcode, h.operandCount_opcode]

/-- Where the parameters keep the layout, an instruction that R83 says sets PC itself keeps the PC it set. -/
theorem State.finish_setsPc {s : State} (h : s.params.WellFormed) {m : Mnemonic} (hm : m.setsPc = true) (t : State) :
    s.finish m t = t := by
  rw [State.finish, State.opcode, h.setsPcBit_opcode, hm, if_pos rfl]

/-- Where the parameters keep the layout, every other instruction moves PC past its operands. -/
theorem State.finish_advances {s : State} (h : s.params.WellFormed) {m : Mnemonic} (hm : m.setsPc = false) (t : State) :
    s.finish m t = t.setPc (s.pc + 1 + m.operands) := by
  rw [State.finish, State.opcode, h.setsPcBit_opcode, hm, if_neg (by decide), State.nextPc_eq h]

/-! ## Raising a fault -/

@[simp] theorem raise_run (k : FaultKind) (op : Option Byte) (i : FaultInfo) :
    (raise k op i s).run = .faulted ⟨k, s.pc, op, i⟩ := rfl

/-- A raise writes the run state and nothing else (R202). -/
theorem raise_eq (k : FaultKind) (op : Option Byte) (i : FaultInfo) :
    raise k op i s = s.setRun (.faulted ⟨k, s.pc, op, i⟩) := rfl

theorem raiseOutOfBounds_eq (op : Option Byte) (v : Nat) :
    raiseOutOfBounds op v s = s.setRun (.faulted ⟨.outOfBounds, s.pc, op, .value v⟩) := rfl

/-! ## Interrupt lines -/

theorem lineBit_getLsbD (i k : Fin 8) : (lineBit i).getLsbD k.val = decide (k = i) := by
  revert i k; decide

theorem lowestLine_some {v : Byte} {i : Fin 8} :
    lowestLine v = some i ↔ v.getLsbD i.val = true ∧ ∀ j, j < i → v.getLsbD j.val = false := by
  unfold lowestLine
  rw [List.find?_eq_some_iff_getElem]
  constructor
  · rintro ⟨h, k, hk, e, hlt⟩
    simp only [List.getElem_finRange] at e
    have hki : k = i.val := by rw [← e]; rfl
    refine ⟨h, fun j hj => ?_⟩
    have := hlt j.val (by rw [hki]; exact hj)
    simpa using this
  · rintro ⟨h, hlt⟩
    refine ⟨h, i.val, by simp, by simp, fun j hj => ?_⟩
    have hj8 : j < 8 := Nat.lt_trans hj i.isLt
    simpa using hlt ⟨j, hj8⟩ hj

theorem lowestLine_none {v : Byte} : lowestLine v = none ↔ v = 0 := by
  unfold lowestLine
  rw [List.find?_eq_none]
  constructor
  · intro h
    refine BitVec.eq_of_getLsbD_eq fun i hi => ?_
    simpa using h ⟨i, hi⟩ (List.mem_finRange _)
  · rintro rfl i -
    simp

/-- Clearing a line's pending bit leaves the other seven. -/
theorem State.clearPending_bit (i : Fin 8) (k : Nat) (hk : k < 8) :
    ((s.clearPending i).reg 6).getLsbD k = ((s.reg 6).getLsbD k && !decide (k = i.val)) := by
  have h := lineBit_getLsbD i ⟨k, hk⟩
  simp only [Fin.ext_iff] at h
  simp only [State.clearPending, State.reg_setReg, if_true, State.is, BitVec.getLsbD_and, BitVec.getLsbD_not, h, hk,
    decide_true, Bool.true_and]

/-- Setting a line's pending bit leaves the other seven. -/
theorem State.setPending_bit (i : Fin 8) (k : Nat) (hk : k < 8) :
    ((s.setPending i).reg 6).getLsbD k = ((s.reg 6).getLsbD k || decide (k = i.val)) := by
  have h := lineBit_getLsbD i ⟨k, hk⟩
  simp only [Fin.ext_iff] at h
  simp only [State.setPending, State.reg_setReg, if_true, State.is, BitVec.getLsbD_or, h]

/-- The vector slots are 0xF8 to 0xFF, so reading one is no draw (R57). -/
theorem vectorSlot_toNat (i : Fin 8) : (vectorSlot i).toNat = 0xF8 + i.val := by
  revert i; decide

theorem vectorSlot_cell (i : Fin 8) : isScratch (vectorSlot i) = false := by
  revert i; decide

/-- The check takes a line exactly when interrupts are enabled and it is the lowest one masked in and pending. -/
theorem activeLine_some {i : Fin 8} :
    activeLine s = some i ↔ s.ie = true ∧ lowestLine (s.im &&& s.is) = some i := by
  unfold activeLine
  split <;> simp_all

/-! ## Taking an interrupt and returning from one -/

theorem toNat_sub_const (x : Byte) {n : Nat} (h : n < 256) : (x - BitVec.ofNat 8 n).toNat = (x.toNat + (256 - n)) % 256 := by
  rw [BitVec.toNat_sub, BitVec.toNat_ofNat]; omega

/-- The frame of R212 in memory: after Push(b) and the pushes of FL and R0 to R6, what each cell holds. -/
theorem State.pushContext_read (b : Byte) (a : Nat) : ((s.pushByte b).pushContext).mem.read a =
    if a = (s.sp.toNat + 247) % 256 then s.reg 6 else if a = (s.sp.toNat + 248) % 256 then s.reg 5
    else if a = (s.sp.toNat + 249) % 256 then s.reg 4 else if a = (s.sp.toNat + 250) % 256 then s.reg 3
    else if a = (s.sp.toNat + 251) % 256 then s.reg 2 else if a = (s.sp.toNat + 252) % 256 then s.reg 1
    else if a = (s.sp.toNat + 253) % 256 then s.reg 0 else if a = (s.sp.toNat + 254) % 256 then s.fl
    else if a = (s.sp.toNat + 255) % 256 then b else s.mem.read a := by
  have e : ∀ n, n < 255 → s.sp - BitVec.ofNat 8 n - 1#8 = s.sp - BitVec.ofNat 8 (n + 1) := by
    intro n h
    refine BitVec.eq_of_toNat_eq ?_
    rw [toNat_sub_const _ (by decide), toNat_sub_const _ (by omega), toNat_sub_const _ (by omega)]
    omega
  have h2 := e 1 (by decide)
  have h3 := e 2 (by decide)
  have h4 := e 3 (by decide)
  have h5 := e 4 (by decide)
  have h6 := e 5 (by decide)
  have h7 := e 6 (by decide)
  have h8 := e 7 (by decide)
  have h9 := e 8 (by decide)
  unfold State.pushContext
  simp only [List.foldl, State.pushReg, State.pushByte_reg, State.pushByte_sp, State.pushByte_mem, Memory.read_write,
    State.pushByte_fl]
  simp only [Nat.reduceAdd, BitVec.ofNat_eq_ofNat] at *
  rw [h2, h3, h4, h5, h6, h7, h8, h9]
  simp only [toNat_sub_const _ (show 1 < 256 by decide), toNat_sub_const _ (show 2 < 256 by decide),
    toNat_sub_const _ (show 3 < 256 by decide), toNat_sub_const _ (show 4 < 256 by decide),
    toNat_sub_const _ (show 5 < 256 by decide), toNat_sub_const _ (show 6 < 256 by decide),
    toNat_sub_const _ (show 7 < 256 by decide), toNat_sub_const _ (show 8 < 256 by decide),
    toNat_sub_const _ (show 9 < 256 by decide)]
  rfl

/-- An entry either has a PC that fits a cell and pushes the frame, or raises OutOfBounds with IE and IS written. -/
theorem interruptEntry_cases (i : Fin 8) :
    (s.pc ≤ 0xFF ∧ ∃ u, u = (((s.setIe false).clearPending i).pushByte (BitVec.ofNat 8 s.pc)).pushContext ∧
        interruptEntry i s = (u.afterRead (vectorSlot i)).setPc (u.peek (vectorSlot i)).toNat) ∨
      (0xFF < s.pc ∧ interruptEntry i s = raiseOutOfBounds none s.pc ((s.setIe false).clearPending i)) := by
  rcases push_cases ((s.setIe false).clearPending i) s.pc with ⟨h, e⟩ | ⟨h, e⟩
  · refine .inl ⟨h, _, rfl, ?_⟩
    have hp : ((s.setIe false).clearPending i).pc = s.pc := rfl
    simp only [interruptEntry, hp, e]
  · refine .inr ⟨h, ?_⟩
    have hp : ((s.setIe false).clearPending i).pc = s.pc := rfl
    simp only [interruptEntry, hp, e]

/-! ## The canonical form of memory is kept by everything that writes memory -/

variable {s}

theorem State.store_wf (h : s.mem.wf) (a v : Byte) : (s.store a v).mem.wf := Memory.write_byte_wf h a v

theorem State.pushByte_wf (h : s.mem.wf) (v : Byte) : (s.pushByte v).mem.wf := Memory.write_byte_wf h _ v

theorem State.pushContext_wf (h : s.mem.wf) : s.pushContext.mem.wf := by
  unfold State.pushContext
  simp only [List.foldl]
  exact State.pushByte_wf (State.pushByte_wf (State.pushByte_wf (State.pushByte_wf (State.pushByte_wf
    (State.pushByte_wf (State.pushByte_wf (State.pushByte_wf h _) _) _) _) _) _) _) _

theorem memWrite_wf (h : s.mem.wf) {a : Nat} {v : Byte} {t : State} (e : memWrite a v s = .ok t) : t.mem.wf := by
  unfold memWrite at e
  split at e
  · cases e
  · cases e; exact State.store_wf h _ _

theorem push_wf (h : s.mem.wf) {v : Nat} {t : State} (e : push v s = .ok t) : t.mem.wf := by
  rcases push_cases s v with ⟨-, e'⟩ | ⟨-, e'⟩
  · cases e'.symm.trans e; exact State.pushByte_wf h _
  · cases e'.symm.trans e

theorem polls_wf (h : s.mem.wf) (i : Sample) : (polls i s).mem.wf := by
  obtain ⟨key, tick⟩ := i
  cases key <;> cases tick <;> first | exact h | exact State.store_wf h _ _

theorem interruptEntry_wf (h : s.mem.wf) (i : Fin 8) : (interruptEntry i s).mem.wf := by
  rcases interruptEntry_cases s i with ⟨-, u, rfl, e⟩ | ⟨-, e⟩ <;> rw [e]
  · simp only [State.setPc_mem, State.afterRead_mem]
    exact State.pushContext_wf (State.pushByte_wf (s := (s.setIe false).clearPending i) h _)
  · exact h

theorem State.storeBytes_wf (vs : List Byte) (a : Nat) {s : State} (h : s.mem.wf) : (s.storeBytes a vs).mem.wf := by
  induction vs generalizing a s with
  | nil => exact h
  | cons v vs ih =>
    unfold State.storeBytes
    refine ih _ ?_
    split
    · exact State.store_wf h _ _
    · exact h

theorem loadLines_wf (image : List (Option Nat)) (k : Nat) {s : State} (h : s.mem.wf) : (loadLines k image s).mem.wf := by
  induction image generalizing k s with
  | nil => exact h
  | cons line rest ih =>
    unfold loadLines
    split
    next t e =>
      obtain ⟨v, -, hv⟩ := Option.bind_eq_some_iff.1 e
      unfold writeMemory at hv
      split at hv
      · cases hv; exact ih _ (State.store_wf h _ _)
      · cases hv
    · exact h

end Sys2Proof.Machine
end

