-- ==== Sys2Proof/Laws/Exec.lean ====
section
/-! SUPPORT. What any instruction can do, said once: every execution is one of the shapes of `Effect`, so a rule about
all instructions is a case split over these shapes and not over the 35 meanings. -/

namespace Sys2Proof.Machine

/-- The shapes of an execution of i in s. -/
inductive Effect (i : Instr) (s : State) : State → Prop where
  | faults (kind : FaultKind) (info : FaultInfo) (h : kind = .divisionByZero ∨ kind = .outOfBounds) :
      Effect i s (raise kind (some (s.opcode i.mnemonic)) info s)
  | advances : Effect i s (s.finish i.mnemonic s)
  | writesReg (r : RegIx) (v : Byte) : Effect i s (s.finish i.mnemonic (s.setReg r v))
  | loads (r : RegIx) (a : Byte) : Effect i s (s.finish i.mnemonic ((s.afterRead a).setReg r (s.peek a)))
  | compares (v : Byte) (h : i.mnemonic = .cmp) : Effect i s (s.finish i.mnemonic (s.setFl v))
  | stores (a v : Byte) : Effect i s (s.finish i.mnemonic (s.store a v))
  | pushes (v : Byte) : Effect i s (s.finish i.mnemonic (s.pushByte v))
  | pops (r : RegIx) : Effect i s (s.finish i.mnemonic (s.popReg r))
  | emits (k : OutKind) (v : Byte) (h : (i.mnemonic = .prn ∧ k = .num) ∨ (i.mnemonic = .pra ∧ k = .chr)) :
      Effect i s (s.finish i.mnemonic (s.emit k v))
  | halts (h : i = .hlt) : Effect i s ((s.setPc (s.nextPc .hlt)).setRun .halted)
  | jumps (a : Byte) : Effect i s (s.finish i.mnemonic (s.setPc a.toNat))
  | fallsThrough : Effect i s (s.finish i.mnemonic (s.setPc (s.nextPc i.mnemonic)))
  | calls (v a : Byte) : Effect i s (s.finish i.mnemonic ((s.pushByte v).setPc a.toNat))
  | returns : Effect i s (s.finish i.mnemonic s.popPc)
  | pends (line : Fin 8) (advances : Bool) :
      Effect i s (s.finish i.mnemonic ((s.setPending line).setPc (if advances then s.nextPc i.mnemonic else s.pc)))
  | irets (h : i = .iret) : Effect i s (s.finish i.mnemonic (interruptReturn s))

variable (s : State)

/-- An outcome that is a next state of one of the shapes. -/
def HasEffect (i : Instr) (s : State) (o : Outcome) : Prop := ∃ t, o = .next t ∧ Effect i s t

theorem withReg_effect {i : Instr} (a : Byte) {k : RegIx → Outcome} (h : ∀ r, HasEffect i s (k r)) :
    HasEffect i s (withReg i.mnemonic a s k) := by
  rcases withReg_cases s i.mnemonic a k with ⟨r, -, e⟩ | ⟨-, e⟩
  · rw [e]; exact h r
  · rw [e]; exact ⟨_, rfl, .faults .outOfBounds _ (.inr rfl)⟩

theorem withRegs_effect {i : Instr} (a b : Byte) {k : RegIx → RegIx → Outcome} (h : ∀ r q, HasEffect i s (k r q)) :
    HasEffect i s (withRegs i.mnemonic a b s k) :=
  withReg_effect s a fun r => withReg_effect s b fun q => h r q

theorem aluBinary_effect (i : Instr) (f : Byte → Byte → Byte) (a b : Byte) :
    HasEffect i s (aluBinary i.mnemonic f a b s) :=
  withRegs_effect s a b fun _ _ => ⟨_, rfl, .writesReg _ _⟩

theorem aluUnary_effect (i : Instr) (f : Byte → Byte) (a : Byte) : HasEffect i s (aluUnary i.mnemonic f a s) :=
  withReg_effect s a fun _ => ⟨_, rfl, .writesReg _ _⟩

theorem aluDivide_effect (i : Instr) (f : Byte → Byte → Byte) (a b : Byte) :
    HasEffect i s (aluDivide i.mnemonic f a b s) :=
  withRegs_effect s a b fun r q => by
    by_cases h : s.reg q = 0
    · exact ⟨_, if_pos h, .faults _ _ (.inl rfl)⟩
    · exact ⟨_, if_neg h, .writesReg _ _⟩

theorem jumpIf_effect (i : Instr) (cond : Byte → Bool) (a : Byte) : HasEffect i s (jumpIf i.mnemonic cond a s) :=
  withReg_effect s a fun r => by
    refine ⟨_, rfl, ?_⟩
    split
    · exact .jumps _
    · exact .fallsThrough

theorem execCall_effect (a : Byte) : HasEffect (.call a) s (execCall a s) :=
  withReg_effect (i := .call a) s a fun r => by
    rcases push_cases s (s.pc + 2) with ⟨-, e⟩ | ⟨-, e⟩
    · exact ⟨_, by rw [e]; rfl, .calls (BitVec.ofNat 8 (s.pc + 2)) (s.reg r)⟩
    · exact ⟨raiseOutOfBounds (some (s.opcode .call)) (s.pc + 2) s, by rw [e], .faults .outOfBounds _ (.inr rfl)⟩

theorem execInt_effect (a : Byte) : HasEffect (.int a) s (execInt a s) :=
  withReg_effect (i := .int a) s a fun r => by
    cases e : index8 (s.reg r) with
    | none => exact ⟨_, rfl, .faults .outOfBounds _ (.inr rfl)⟩
    | some line => exact ⟨_, rfl, .pends line _⟩

/-- Every instruction answers a next state of one of the shapes. -/
theorem exec_effect (i : Instr) : HasEffect i s (exec i s) := by
  cases i with
  | nop => exact ⟨_, rfl, .advances⟩
  | hlt => exact ⟨_, rfl, .halts rfl⟩
  | ret => exact ⟨_, rfl, .returns⟩
  | iret => exact ⟨_, rfl, .irets rfl⟩
  | push a => exact withReg_effect (i := .push a) s a fun _ => ⟨_, rfl, .pushes _⟩
  | pop a => exact withReg_effect (i := .pop a) s a fun _ => ⟨_, rfl, .pops _⟩
  | prn a => exact withReg_effect (i := .prn a) s a fun _ => ⟨_, rfl, .emits _ _ (.inl ⟨rfl, rfl⟩)⟩
  | pra a => exact withReg_effect (i := .pra a) s a fun _ => ⟨_, rfl, .emits _ _ (.inr ⟨rfl, rfl⟩)⟩
  | call a => exact execCall_effect s a
  | int a => exact execInt_effect s a
  | jmp a => exact jumpIf_effect s (.jmp a) (fun _ => true) a
  | jeq a => exact jumpIf_effect s (.jeq a) _ a
  | jne a => exact jumpIf_effect s (.jne a) _ a
  | jgt a => exact jumpIf_effect s (.jgt a) _ a
  | jlt a => exact jumpIf_effect s (.jlt a) _ a
  | jle a => exact jumpIf_effect s (.jle a) _ a
  | jge a => exact jumpIf_effect s (.jge a) _ a
  | inc a => exact aluUnary_effect s (.inc a) (fun x => x + 1) a
  | dec a => exact aluUnary_effect s (.dec a) (fun x => x - 1) a
  | not a => exact aluUnary_effect s (.not a) _ a
  | ldi a imm => exact withReg_effect (i := .ldi a imm) s a fun _ => ⟨_, rfl, .writesReg _ _⟩
  | ld a b => exact withRegs_effect (i := .ld a b) s a b fun _ _ => ⟨_, rfl, .loads _ _⟩
  | st a b => exact withRegs_effect (i := .st a b) s a b fun _ _ => ⟨_, rfl, .stores _ _⟩
  | add a b => exact aluBinary_effect s (.add a b) _ a b
  | sub a b => exact aluBinary_effect s (.sub a b) _ a b
  | mul a b => exact aluBinary_effect s (.mul a b) _ a b
  | div a b => exact aluDivide_effect s (.div a b) _ a b
  | mod a b => exact aluDivide_effect s (.mod a b) _ a b
  | cmp a b => exact withRegs_effect (i := .cmp a b) s a b fun _ _ => ⟨_, rfl, .compares _ rfl⟩
  | and a b => exact aluBinary_effect s (.and a b) _ a b
  | or a b => exact aluBinary_effect s (.or a b) _ a b
  | xor a b => exact aluBinary_effect s (.xor a b) _ a b
  | shl a b => exact aluBinary_effect s (.shl a b) (fun x y => x <<< y.toNat) a b
  | shr a b => exact aluBinary_effect s (.shr a b) (fun x y => x >>> y.toNat) a b
  | addi a imm => exact aluUnary_effect s (.addi a imm) (fun x => x + imm) a

/-- What a given next state of an instruction is. -/
theorem effect_of_exec {i : Instr} {t : State} (h : exec i s = .next t) : Effect i s t := by
  obtain ⟨u, hu, e⟩ := exec_effect s i
  cases hu.symm.trans h
  exact e

/-! ## Popping registers -/

theorem State.popReg_reg (j k : RegIx) :
    (s.popReg j).reg k = if k = j then s.popValue else if k = 7 then s.sp + 1 else s.reg k := by
  simp [State.popReg, State.reg_setReg, State.afterPop_reg]

theorem State.popReg_sp {j : RegIx} (h : j ≠ 7) : (s.popReg j).sp = s.sp + 1 := by
  simp [State.sp, State.popReg_reg, Ne.symm h]

@[simp] theorem State.popReg_mem (j : RegIx) : (s.popReg j).mem = s.mem := by simp [State.popReg]

@[simp] theorem State.popReg_fl (j : RegIx) : (s.popReg j).fl = s.fl := by simp [State.popReg]

@[simp] theorem State.popReg_pc (j : RegIx) : (s.popReg j).pc = s.pc := by simp [State.popReg]

@[simp] theorem State.popReg_ie (j : RegIx) : (s.popReg j).ie = s.ie := by simp [State.popReg]

@[simp] theorem State.popReg_run (j : RegIx) : (s.popReg j).run = s.run := by simp [State.popReg]

@[simp] theorem State.popReg_out (j : RegIx) : (s.popReg j).out = s.out := by simp [State.popReg]

@[simp] theorem State.popReg_inputs (j : RegIx) : (s.popReg j).inputs = s.inputs := by simp [State.popReg]

@[simp] theorem State.popReg_cycles (j : RegIx) : (s.popReg j).cycles = s.cycles := by simp [State.popReg]

@[simp] theorem State.popReg_params (j : RegIx) : (s.popReg j).params = s.params := by simp [State.popReg]

@[simp] theorem State.popReg_draws (j : RegIx) : (s.popReg j).draws = s.draws + if isScratch s.sp then 1 else 0 := by
  simp [State.popReg]

@[simp] theorem State.popPc_fl : s.popPc.fl = s.fl := by simp [State.popPc]

@[simp] theorem State.popPc_ie : s.popPc.ie = s.ie := by simp [State.popPc]

@[simp] theorem State.popPc_run : s.popPc.run = s.run := by simp [State.popPc]

@[simp] theorem State.popPc_mem : s.popPc.mem = s.mem := by simp [State.popPc]

@[simp] theorem State.popPc_out : s.popPc.out = s.out := by simp [State.popPc]

@[simp] theorem State.popPc_inputs : s.popPc.inputs = s.inputs := by simp [State.popPc]

@[simp] theorem State.popPc_cycles : s.popPc.cycles = s.cycles := by simp [State.popPc]

@[simp] theorem State.popPc_params : s.popPc.params = s.params := by simp [State.popPc]

@[simp] theorem State.popFl_pc : s.popFl.pc = s.pc := by simp [State.popFl]

@[simp] theorem State.popFl_ie : s.popFl.ie = s.ie := by simp [State.popFl]

@[simp] theorem State.popFl_run : s.popFl.run = s.run := by simp [State.popFl]

@[simp] theorem State.popFl_mem : s.popFl.mem = s.mem := by simp [State.popFl]

@[simp] theorem State.popFl_out : s.popFl.out = s.out := by simp [State.popFl]

@[simp] theorem State.popFl_inputs : s.popFl.inputs = s.inputs := by simp [State.popFl]

@[simp] theorem State.popFl_cycles : s.popFl.cycles = s.cycles := by simp [State.popFl]

@[simp] theorem State.popFl_params : s.popFl.params = s.params := by simp [State.popFl]

/-- A popped PC is a byte. -/
theorem State.popPc_le : s.popPc.pc ≤ 0xFF := by
  have h : s.popPc.pc = s.popValue.toNat := rfl
  have := s.popValue.isLt
  omega

/-- Of an IRET: it leaves memory, the run state, the output, the samples and the parameters, sets IE or leaves it, and pops
a byte into PC. -/
theorem interruptReturn_rest : (interruptReturn s).mem = s.mem ∧ (interruptReturn s).run = s.run ∧
    (interruptReturn s).out = s.out ∧ SameOutside s (interruptReturn s) ∧
    (interruptReturn s).ie = (s.params.iretSetsIe || s.ie) ∧ (interruptReturn s).pc ≤ 0xFF := by
  unfold interruptReturn SameOutside
  cases s.params.iretSetsIe
  · exact ⟨by simp, by simp, by simp, by simp, by simp, by simpa using State.popPc_le _⟩
  · exact ⟨by simp, by simp, by simp, by simp, by simp, by simpa using State.popPc_le _⟩

/-! ## Pushing the context -/

@[simp] theorem State.pushContext_fl : s.pushContext.fl = s.fl := rfl

@[simp] theorem State.pushContext_pc : s.pushContext.pc = s.pc := rfl

@[simp] theorem State.pushContext_ie : s.pushContext.ie = s.ie := rfl

@[simp] theorem State.pushContext_run : s.pushContext.run = s.run := rfl

@[simp] theorem State.pushContext_out : s.pushContext.out = s.out := rfl

@[simp] theorem State.pushContext_inputs : s.pushContext.inputs = s.inputs := rfl

@[simp] theorem State.pushContext_cycles : s.pushContext.cycles = s.cycles := rfl

@[simp] theorem State.pushContext_params : s.pushContext.params = s.params := rfl

@[simp] theorem State.pushContext_draws : s.pushContext.draws = s.draws := rfl

/-- The pushes of an entry lower SP by eight and write no other register. -/
theorem State.pushContext_reg (j : RegIx) : s.pushContext.reg j = if j = 7 then s.sp - 8 else s.reg j := by
  unfold State.pushContext
  simp only [List.foldl, State.pushReg, State.pushByte_reg, State.pushByte_sp]
  split
  · simp only [BitVec.sub_eq_add_neg, BitVec.add_assoc]; rfl
  · rfl

/-- Of an entry: FL, the output, the samples and the parameters stay, and PC is a byte or as it was. -/
theorem interruptEntry_rest (i : Fin 8) : (interruptEntry i s).fl = s.fl ∧ (interruptEntry i s).out = s.out ∧
    SameOutside s (interruptEntry i s) ∧ (interruptEntry i s).ie = false ∧
    ((interruptEntry i s).pc ≤ 0xFF ∨ (interruptEntry i s).pc = s.pc) := by
  rcases interruptEntry_cases s i with ⟨-, u, rfl, e⟩ | ⟨-, e⟩ <;> rw [e]
  · refine ⟨by simp, by simp, ⟨by simp, by simp, by simp⟩, by simp, .inl ?_⟩
    simp only [State.setPc_pc]
    exact Nat.le_of_lt_succ (BitVec.isLt _)
  · exact ⟨rfl, rfl, ⟨rfl, rfl, rfl⟩, rfl, .inr rfl⟩

/-! ## Fetching and the cycle -/

/-- Under a map that keeps the layout of R83 no byte names an operation that the ALU does not perform (R88). -/
theorem unsupported_opcode {p : Params} (h : p.WellFormed) (m : Mnemonic) : unsupported m (p.opcode m) = false := by
  by_cases hm : m = .addi
  · subst hm; simp [unsupported, Mnemonic.aluPerforms]
  · rw [unsupported, h.aluBit_opcode hm]
    cases m.aluPerforms <;> rfl

/-- What a fetch can do: raise with nothing but the run state and the draw count changed, or give an instruction with
nothing but the draw count changed.  UnsupportedOperation needs a map that breaks the layout of R83 (R88). -/
theorem fetch_cases :
    (∃ k op info u, fetch s = .error (raise k op info u) ∧ u = { s with draws := u.draws } ∧
        k ≠ .programLoadError ∧ (k = .unsupportedOperation → ¬ s.params.WellFormed)) ∨
      (∃ i u, fetch s = .ok (i, u) ∧ u = { s with draws := u.draws } ∧ s.pc ≤ 0xFF) := by
  have hread : ∀ (a : Byte) (u : State), u = { s with draws := u.draws } →
      u.afterRead a = { s with draws := (u.afterRead a).draws } := by
    intro a u hu
    unfold State.afterRead
    split
    · rw [hu]
    · exact hu
  have hop : ∀ (w : Bool) (a : Nat) (u : State), u = { s with draws := u.draws } →
      (∃ v, fetchOperand w a u = .error v) ∨ (∃ x u', fetchOperand w a u = .ok (x, u') ∧ u' = { s with draws := u'.draws }) := by
    intro w a u hu
    cases w with
    | false => exact .inr ⟨_, _, rfl, hu⟩
    | true =>
      rcases memRead_cases u (u.pc + a) with ⟨-, e⟩ | ⟨-, e⟩
      · exact .inr ⟨_, _, e, hread _ _ hu⟩
      · exact .inl ⟨_, e⟩
  rcases memRead_cases s s.pc with ⟨hpc, e⟩ | ⟨-, e⟩
  · have hu := hread (BitVec.ofNat 8 s.pc) s rfl
    generalize s.peek (BitVec.ofNat 8 s.pc) = op at e
    generalize s.afterRead (BitVec.ofNat 8 s.pc) = u at e hu
    cases hd : decodeOpcode s.params op with
    | none =>
      exact .inl ⟨.illegalInstruction, some op, .opcodeByte op, u, by simp only [fetch, e, hd], hu, by decide, nofun⟩
    | some m =>
      rcases hop (decide (1 ≤ operandCount op)) 1 u hu with ⟨v, e1⟩ | ⟨x, u1, e1, h1⟩
      · exact .inl ⟨.outOfBounds, some op, .value v, u, by simp only [fetch, fetchOperands, e, hd, e1, raiseOutOfBounds], hu,
          by decide, nofun⟩
      · rcases hop (decide (operandCount op = 2)) 2 u1 h1 with ⟨v, e2⟩ | ⟨y, u2, e2, h2⟩
        · exact .inl ⟨.outOfBounds, some op, .value v, u,
            by simp only [fetch, fetchOperands, e, hd, e1, e2, raiseOutOfBounds], hu, by decide, nofun⟩
        · cases hs : unsupported m op with
          | false =>
            refine .inr ⟨m.assemble x y, u2, ?_, h2, hpc⟩
            simp only [fetch, fetchOperands, e, hd, e1, e2, hs, Bool.false_eq_true, if_false]
          | true =>
            refine .inl ⟨.unsupportedOperation, some op, .opcodeByte op, u2, ?_, h2, by decide, fun _ hw => ?_⟩
            · simp only [fetch, fetchOperands, e, hd, e1, e2, hs, if_true]
            · rw [← opcode_of_decodeOpcode hd, unsupported_opcode hw] at hs
              cases hs
  · exact .inl ⟨.outOfBounds, none, .value s.pc, s, by simp only [fetch, e, raiseOutOfBounds], rfl, by decide, nofun⟩

/-- An instruction fetched: PC named a cell, and nothing but the draw count changed. -/
theorem fetch_ok {s : State} {i : Instr} {u : State} (h : fetch s = .ok (i, u)) :
    u = { s with draws := u.draws } ∧ s.pc ≤ 0xFF := by
  rcases fetch_cases s with ⟨_, _, _, _, h', -⟩ | ⟨i', u', h', hu, hpc⟩
  · cases h'.symm.trans h
  · cases h'.symm.trans h
    exact ⟨hu, hpc⟩

/-- A fetch that raised: nothing but the run state and the draw count changed. -/
theorem fetch_error {s t : State} (h : fetch s = .error t) :
    ∃ k op info u, t = raise k op info u ∧ u = { s with draws := u.draws } ∧ k ≠ .programLoadError ∧
      (k = .unsupportedOperation → ¬ s.params.WellFormed) := by
  rcases fetch_cases s with ⟨k, op, info, u, h', hu, hk⟩ | ⟨_, _, h', -⟩
  · cases h'.symm.trans h
    exact ⟨k, op, info, u, rfl, hu, hk⟩
  · cases h'.symm.trans h

/-! ### What a fetch sees (R52, R54, R91, R92) -/

theorem isScratch_ofNat {a : Nat} (h : a ≤ 0xFF) : isScratch (BitVec.ofNat 8 a) = decide (0xF5 ≤ a ∧ a ≤ 0xF7) := by
  rw [Bool.eq_iff_iff, isScratch_iff, decide_eq_true_iff, BitVec.toNat_ofNat, Nat.mod_eq_of_lt (by omega)]

theorem scratchCount_succ (a n : Nat) :
    scratchCount a (n + 1) = scratchCount a n + if 0xF5 ≤ a + n ∧ a + n ≤ 0xF7 then 1 else 0 := by
  unfold scratchCount
  rw [List.range_succ, List.filter_append, List.length_append]
  congr 1
  by_cases h : 0xF5 ≤ a + n ∧ a + n ≤ 0xF7
  · simp [h]
  · rw [if_neg h, List.filter_cons_of_neg (by simpa using h)]; rfl

/-- Reading byte j of an instruction after the bytes before it: the fetch's view of it, and one more draw at a draw cell. -/
theorem memRead_fetchView (j : Nat) (h : s.pc + j ≤ 0xFF) :
    memRead (s.pc + j) { s with draws := s.draws + scratchCount s.pc j } =
      .ok (fetchView s j, { s with draws := s.draws + scratchCount s.pc (j + 1) }) := by
  have hn : (BitVec.ofNat 8 (s.pc + j)).toNat = s.pc + j := by rw [BitVec.toNat_ofNat]; omega
  rw [scratchCount_succ]
  unfold memRead fetchView State.peek State.afterRead
  rw [if_neg (by omega), isScratch_ofNat h]
  by_cases hs : 0xF5 ≤ s.pc + j ∧ s.pc + j ≤ 0xF7
  · simp only [hs, decide_true, if_true, and_self]; rfl
  · simp only [hs, decide_false, if_false, hn, Bool.false_eq_true]; rfl

/-- A fetch whose bytes all exist, under parameters that keep the layout: the instruction its bytes spell and the draws
counted, or IllegalInstruction. -/
theorem fetch_eq (hw : s.params.WellFormed) (h : s.pc ≤ 0xFF)
    (hop : ∀ m, decodeOpcode s.params (fetchView s 0) = some m → s.pc + m.operands ≤ 0xFF) :
    fetch s = match decodeOpcode s.params (fetchView s 0) with
      | none => .error (raise .illegalInstruction (some (fetchView s 0)) (.opcodeByte (fetchView s 0))
          { s with draws := s.draws + scratchCount s.pc 1 })
      | some m => .ok (m.assemble (fetchView s 1) (fetchView s 2),
          { s with draws := s.draws + scratchCount s.pc (1 + m.operands) }) := by
  have r0 : memRead s.pc s = .ok (fetchView s 0, { s with draws := s.draws + scratchCount s.pc 1 }) :=
    memRead_fetchView s 0 h
  cases hd : decodeOpcode s.params (fetchView s 0) with
  | none => simp only [fetch, r0, hd]
  | some m =>
    have ho := opcode_of_decodeOpcode hd
    have hm := hop m hd
    have hn : operandCount (fetchView s 0) = m.operands := by rw [← ho, hw.operandCount_opcode]
    have hal : unsupported m (fetchView s 0) = false := by rw [← ho]; exact unsupported_opcode hw m
    simp only [fetch, r0, hd, hn, hal, fetchOperands]
    cases m <;> simp only [Mnemonic.operands, fetchOperand, Nat.reduceLeDiff, decide_true, decide_false, if_true,
      Bool.false_eq_true, if_false, Nat.reduceEqDiff, Nat.reduceAdd] at hm ⊢
    all_goals first
      | rfl
      | (have r1 := memRead_fetchView s 1 (by omega)
         simp only [Nat.reduceAdd] at r1
         simp only [r1]
         rfl)
      | (have r1 := memRead_fetchView s 1 (by omega)
         have r2 := memRead_fetchView s 2 (by omega)
         simp only [Nat.reduceAdd] at r1 r2
         simp only [r1, r2])

/-- What a step of a Running block can do (R90): enter an interrupt, fault in the fetch, or execute an instruction. -/
theorem step_running_cases (h : s.run = .running) :
    (∃ i, activeLine (polled s) = some i ∧ step s = .next (interruptEntry i (polled s))) ∨
      (activeLine (polled s) = none ∧ ∃ t, fetch (polled s) = .error t ∧ step s = .next t) ∨
      (activeLine (polled s) = none ∧ ∃ i u, fetch (polled s) = .ok (i, u) ∧ step s = exec i u) := by
  have hs : step s = afterPolls (polled s) := by simp only [step, advanceMachine, h, cycle, polled]
  rw [hs]
  unfold afterPolls runInstruction
  cases activeLine (polled s) with
  | some i => exact .inl ⟨i, rfl, rfl⟩
  | none =>
    cases hf : fetch (polled s) with
    | error t => exact .inr (.inl ⟨rfl, t, rfl, by simp only⟩)
    | ok p => exact .inr (.inr ⟨rfl, p.1, p.2, rfl, by simp only⟩)

/-- A block that is not Running steps to itself if Halted, and has no next state if Faulted (R95). -/
theorem step_stopped : (s.run = .halted → step s = .next s) ∧ (∀ r, s.run = .faulted r → step s = .fault (.surfaced r)) :=
  ⟨fun h => by simp only [step, advanceMachine, h], fun r h => by simp only [step, advanceMachine, h]⟩

/-- The polls change memory and R6 only, and the sample is taken (R206, R207). -/
theorem polled_fields : (polled s).fl = s.fl ∧ (polled s).pc = s.pc ∧ (polled s).ie = s.ie ∧ (polled s).run = s.run ∧
    (polled s).out = s.out ∧ (polled s).draws = s.draws ∧ (polled s).params = s.params ∧ (polled s).cycles = s.cycles + 1 ∧
    (polled s).inputs = s.inputs.tail ∧ ∀ j, j ≠ 6 → (polled s).reg j = s.reg j := by
  unfold polled polls pollKey pollTimer
  have hj : ∀ (u : State) (l : Fin 8) (j : RegIx), j ≠ 6 → (u.setPending l).reg j = u.reg j := fun u l j h =>
    State.reg_setReg_ne _ _ _ _ h
  cases s.sample.key <;> cases s.sample.tick <;> refine ⟨rfl, rfl, rfl, rfl, rfl, rfl, rfl, rfl, rfl, fun j h => ?_⟩
  · rfl
  · exact hj _ _ _ h
  · exact hj _ _ _ h
  · exact (hj _ _ _ h).trans (hj _ _ _ h)

end Sys2Proof.Machine
end

