-- ==== Sys2Proof/Laws/PerInstr.lean ====
section
/-! SUPPORT. Laws made per instruction. -/

namespace Sys2Proof.Laws.EncodedLength

/-- The length of an instruction is told by its opcode byte alone: 1 + op[7:6] (R82). -/
def Statement (i : Instr) : Prop :=
  ∀ p : Params, p.WellFormed → (encode p i).length = 1 + operandCount (p.opcode i.mnemonic)

theorem nop : Statement .nop := by
  intro p h; rw [h.operandCount_opcode]; rfl

theorem hlt : Statement .hlt := by
  intro p h; rw [h.operandCount_opcode]; rfl

theorem ret : Statement .ret := by
  intro p h; rw [h.operandCount_opcode]; rfl

theorem iret : Statement .iret := by
  intro p h; rw [h.operandCount_opcode]; rfl

theorem push (a : Byte) : Statement (.push a) := by
  intro p h; rw [h.operandCount_opcode]; rfl

theorem pop (a : Byte) : Statement (.pop a) := by
  intro p h; rw [h.operandCount_opcode]; rfl

theorem prn (a : Byte) : Statement (.prn a) := by
  intro p h; rw [h.operandCount_opcode]; rfl

theorem pra (a : Byte) : Statement (.pra a) := by
  intro p h; rw [h.operandCount_opcode]; rfl

theorem call (a : Byte) : Statement (.call a) := by
  intro p h; rw [h.operandCount_opcode]; rfl

theorem int (a : Byte) : Statement (.int a) := by
  intro p h; rw [h.operandCount_opcode]; rfl

theorem jmp (a : Byte) : Statement (.jmp a) := by
  intro p h; rw [h.operandCount_opcode]; rfl

theorem jeq (a : Byte) : Statement (.jeq a) := by
  intro p h; rw [h.operandCount_opcode]; rfl

theorem jne (a : Byte) : Statement (.jne a) := by
  intro p h; rw [h.operandCount_opcode]; rfl

theorem jgt (a : Byte) : Statement (.jgt a) := by
  intro p h; rw [h.operandCount_opcode]; rfl

theorem jlt (a : Byte) : Statement (.jlt a) := by
  intro p h; rw [h.operandCount_opcode]; rfl

theorem jle (a : Byte) : Statement (.jle a) := by
  intro p h; rw [h.operandCount_opcode]; rfl

theorem jge (a : Byte) : Statement (.jge a) := by
  intro p h; rw [h.operandCount_opcode]; rfl

theorem inc (a : Byte) : Statement (.inc a) := by
  intro p h; rw [h.operandCount_opcode]; rfl

theorem dec (a : Byte) : Statement (.dec a) := by
  intro p h; rw [h.operandCount_opcode]; rfl

theorem not (a : Byte) : Statement (.not a) := by
  intro p h; rw [h.operandCount_opcode]; rfl

theorem ldi (a imm : Byte) : Statement (.ldi a imm) := by
  intro p h; rw [h.operandCount_opcode]; rfl

theorem ld (a b : Byte) : Statement (.ld a b) := by
  intro p h; rw [h.operandCount_opcode]; rfl

theorem st (a b : Byte) : Statement (.st a b) := by
  intro p h; rw [h.operandCount_opcode]; rfl

theorem add (a b : Byte) : Statement (.add a b) := by
  intro p h; rw [h.operandCount_opcode]; rfl

theorem sub (a b : Byte) : Statement (.sub a b) := by
  intro p h; rw [h.operandCount_opcode]; rfl

theorem mul (a b : Byte) : Statement (.mul a b) := by
  intro p h; rw [h.operandCount_opcode]; rfl

theorem div (a b : Byte) : Statement (.div a b) := by
  intro p h; rw [h.operandCount_opcode]; rfl

theorem mod (a b : Byte) : Statement (.mod a b) := by
  intro p h; rw [h.operandCount_opcode]; rfl

theorem cmp (a b : Byte) : Statement (.cmp a b) := by
  intro p h; rw [h.operandCount_opcode]; rfl

theorem and (a b : Byte) : Statement (.and a b) := by
  intro p h; rw [h.operandCount_opcode]; rfl

theorem or (a b : Byte) : Statement (.or a b) := by
  intro p h; rw [h.operandCount_opcode]; rfl

theorem xor (a b : Byte) : Statement (.xor a b) := by
  intro p h; rw [h.operandCount_opcode]; rfl

theorem shl (a b : Byte) : Statement (.shl a b) := by
  intro p h; rw [h.operandCount_opcode]; rfl

theorem shr (a b : Byte) : Statement (.shr a b) := by
  intro p h; rw [h.operandCount_opcode]; rfl

theorem addi (a imm : Byte) : Statement (.addi a imm) := by
  intro p h; rw [h.operandCount_opcode]; rfl

end Sys2Proof.Laws.EncodedLength
end

