-- ==== Sys2Proof/Tests/Slice0.lean ====
section
/-! SUPPORT. The model's own tests: words written out from the spec's encoding tables decode as they should, single steps
give what spec 95_test_vectors says (each test names its vector), and each statement with hypotheses or clauses has a
witness. -/

namespace Sys2Proof.Tests

open Sys2Proof.Machine

/-! ## Building small states -/

/-- Reset, with no key and no tick in the first four cycles. -/
def quiet : State := { State.reset with inputs := List.replicate 4 ⟨none, false⟩ }

/-- A quiet block with some registers set. -/
def withR (rs : List (RegIx × Byte)) : State := rs.foldl (fun s p => s.setReg p.1 p.2) quiet

/-- The same with PC at p and bytes stored from p up. -/
def start (p : Nat) (bytes : List Byte) (rs : List (RegIx × Byte)) : State := ((withR rs).setPc p).storeBytes p bytes

/-- The next state, or the same state where there is none. -/
def run1 (o : Outcome) (s : State) : State :=
  match o with
  | .next t => t
  | .fault _ => s
  | .refused _ => s

/-- The state one step later. -/
def after (s : State) : State := run1 (step s) s

/-- The state an instruction leaves. -/
def did (i : Instr) (s : State) : State := run1 (exec i s) s

/-- The record of a Faulted state. -/
def faultOf (s : State) : Option FaultRecord :=
  match s.run with
  | .faulted r => some r
  | .running => none
  | .halted => none

/-- A state with one sample to come. -/
def withSample (key : Option Byte) (tick : Bool) (s : State) : State := { s with inputs := [⟨key, tick⟩] }

/-- A state whose block has these parameters. -/
def withParams (p : Params) (s : State) : State := { s with params := p }

/-- The default parameters with another `OPCODE_MAP`. -/
def withMap (m : OpcodeMap) : Params := { Params.defaults with opcodeMap := m }

/-- The default parameters with this `OPC_ADDI`. -/
def withAddi (b : Byte) : Params := { Params.defaults with opcAddi := b }

/-- A block that keeps the layout of R83 and R84, as every statement with that premise asks. -/
theorem withR_wellFormed (rs : List (RegIx × Byte)) : (withR rs).params.WellFormed := by
  have h : ∀ (rs : List (RegIx × Byte)) (s : State), (rs.foldl (fun s p => s.setReg p.1 p.2) s).params = s.params := by
    intro rs
    induction rs with
    | nil => exact fun _ => rfl
    | cons p rs ih => exact fun s => ih _
  rw [withR, h]
  exact Params.defaults_wellFormed

/-! ## WellFormed: a term for each check, refused and admitted (R85, R86) -/

theorem test_wellFormed_operand_a : ¬ (Instr.push 8).WellFormed ∧ (Instr.push 7).WellFormed := by decide

theorem test_wellFormed_operand_b : ¬ (Instr.add 0 8).WellFormed ∧ (Instr.add 7 7).WellFormed := by decide

theorem test_wellFormed_immediate_is_free : (Instr.ldi 7 0xFF).WellFormed ∧ (Instr.addi 7 0xFF).WellFormed := by decide

/-- A map whose PUSH has two operand bytes, whose JMP leaves PC alone, whose ADD is no ALU operation, or whose ADD shares
SUB's byte, breaks the layout of R83; the default does not. -/
theorem test_wellFormed_map : ¬ (withMap { OpcodeMap.defaults with push := 0x85 }).WellFormed ∧
    ¬ (withMap { OpcodeMap.defaults with jmp := 0x44 }).WellFormed ∧
    ¬ (withMap { OpcodeMap.defaults with add := 0x8C }).WellFormed ∧
    ¬ (withMap { OpcodeMap.defaults with add := 0xA1 }).WellFormed ∧ (withMap OpcodeMap.defaults).WellFormed := by
  have h : ∀ (m : OpcodeMap) (n : Mnemonic), ¬ n.HasLayout ((withMap m).opcode n) → ¬ (withMap m).WellFormed :=
    fun m n hn hw => hn (hw.1 n (mem_mnemonics n))
  refine ⟨h _ .push (by decide), h _ .jmp (by decide), h _ .add (by decide), fun hw => ?_, Params.defaults_wellFormed⟩
  have : Mnemonic.add = Mnemonic.sub := hw.opcode_inj rfl
  cases this

/-- R84: the byte of ADDI has two operand bytes, does not set PC, is none of the 34, and may have either A bit. -/
theorem test_wellFormed_addi : ¬ (withAddi 0x4A).WellFormed ∧ ¬ (withAddi 0xB0).WellFormed ∧ ¬ (withAddi 0xA0).WellFormed ∧
    (withAddi 0x80).WellFormed ∧ (withAddi 0xAF).WellFormed := by decide

/-! ## Decoding (the table of R83, bit by bit) -/

theorem test_decode_system : decode Params.defaults [0b00000000] = .ok (.nop, []) ∧ decode Params.defaults [0b00000001] = .ok (.hlt, []) ∧
    decode Params.defaults [0b00010011] = .ok (.iret, []) ∧ decode Params.defaults [0b01000111, 4] = .ok (.prn 4, []) ∧
    decode Params.defaults [0b01001000, 5] = .ok (.pra 5, []) ∧ decode Params.defaults [0b01010010, 6] = .ok (.int 6, []) :=
  ⟨rfl, rfl, rfl, rfl, rfl, rfl⟩

theorem test_decode_stack : decode Params.defaults [0b01000101, 7] = .ok (.push 7, []) ∧ decode Params.defaults [0b01000110, 0] = .ok (.pop 0, []) :=
  ⟨rfl, rfl⟩

theorem test_decode_control : decode Params.defaults [0b00010001] = .ok (.ret, []) ∧ decode Params.defaults [0b01010000, 1] = .ok (.call 1, []) ∧
    decode Params.defaults [0b01010100, 2] = .ok (.jmp 2, []) ∧ decode Params.defaults [0b01010101, 3] = .ok (.jeq 3, []) ∧
    decode Params.defaults [0b01010110, 4] = .ok (.jne 4, []) ∧ decode Params.defaults [0b01010111, 5] = .ok (.jgt 5, []) ∧
    decode Params.defaults [0b01011000, 6] = .ok (.jlt 6, []) ∧ decode Params.defaults [0b01011001, 7] = .ok (.jle 7, []) ∧
    decode Params.defaults [0b01011010, 0] = .ok (.jge 0, []) :=
  ⟨rfl, rfl, rfl, rfl, rfl, rfl, rfl, rfl, rfl⟩

theorem test_decode_load_store : decode Params.defaults [0b10000010, 3, 0xFF] = .ok (.ldi 3 0xFF, []) ∧
    decode Params.defaults [0b10000011, 1, 2] = .ok (.ld 1 2, []) ∧ decode Params.defaults [0b10000100, 2, 1] = .ok (.st 2 1, []) :=
  ⟨rfl, rfl, rfl⟩

theorem test_decode_alu_unary : decode Params.defaults [0b01100101, 1] = .ok (.inc 1, []) ∧ decode Params.defaults [0b01100110, 2] = .ok (.dec 2, []) ∧
    decode Params.defaults [0b01101001, 3] = .ok (.not 3, []) :=
  ⟨rfl, rfl, rfl⟩

theorem test_decode_alu_arithmetic : decode Params.defaults [0b10100000, 1, 2] = .ok (.add 1 2, []) ∧
    decode Params.defaults [0b10100001, 1, 2] = .ok (.sub 1 2, []) ∧ decode Params.defaults [0b10100010, 1, 2] = .ok (.mul 1 2, []) ∧
    decode Params.defaults [0b10100011, 1, 2] = .ok (.div 1 2, []) ∧ decode Params.defaults [0b10100100, 1, 2] = .ok (.mod 1 2, []) ∧
    decode Params.defaults [0b10100111, 1, 2] = .ok (.cmp 1 2, []) :=
  ⟨rfl, rfl, rfl, rfl, rfl, rfl⟩

theorem test_decode_alu_logic : decode Params.defaults [0b10101000, 1, 2] = .ok (.and 1 2, []) ∧
    decode Params.defaults [0b10101010, 1, 2] = .ok (.or 1 2, []) ∧ decode Params.defaults [0b10101011, 1, 2] = .ok (.xor 1 2, []) ∧
    decode Params.defaults [0b10101100, 1, 2] = .ok (.shl 1 2, []) ∧ decode Params.defaults [0b10101101, 1, 2] = .ok (.shr 1 2, []) :=
  ⟨rfl, rfl, rfl, rfl, rfl⟩

/-- Whatever `OPC_ADDI` is: 0b10x0xxxx, then the register, then the immediate (R84, R125). -/
theorem test_decode_addi : decode Params.defaults [opcAddi, 2, 0xFF] = .ok (.addi 2 0xFF, []) ∧
    opcAddi.extractLsb' 6 2 = 0b10 ∧ setsPcBit opcAddi = false := by
  refine ⟨?_, opcAddi_all (P := fun b => b.extractLsb' 6 2 = 0b10) (by decide),
    opcAddi_all (P := fun b => setsPcBit b = false) (by decide)⟩
  have hd := Params.defaults_wellFormed.decodeOpcode_opcode .addi
  have hn := Params.defaults_wellFormed.operandCount_opcode .addi
  simp only [decode, show opcAddi = Params.defaults.opcode .addi from rfl, hd, hn]
  rfl

/-- R9: other bytes for ADD and SUB; an `OPC_ADDI` that R84 does not admit is no byte's; a byte with bits 7:6 = 0b11 is
illegal whatever the map (R87). -/
theorem test_decode_other_map :
    decode (withMap { OpcodeMap.defaults with add := 0xA1, sub := 0xA0 }) [0xA1, 1, 2] = .ok (.add 1 2, []) ∧
    encode (withMap { OpcodeMap.defaults with add := 0xA1, sub := 0xA0 }) (.sub 1 2) = [0xA0, 1, 2] ∧
    decode (withAddi 0x8F) [0x8F, 1, 2] = .ok (.addi 1 2, []) ∧
    decode (withAddi 0x4F) [0x4F, 1, 2] = .error (.illegalInstruction 0x4F) ∧
    decode (withMap { OpcodeMap.defaults with ld := 0xC3 }) [0xC3, 1, 2] = .error (.illegalInstruction 0xC3) :=
  ⟨rfl, rfl, rfl, rfl, rfl⟩

/-- R87, R91: an illegal byte is refused by name before any operand; a byte that is missing is named too. -/
theorem test_decode_refuses : decode Params.defaults [0x02] = .error (.illegalInstruction 0x02) ∧
    decode Params.defaults [0xC0, 1, 2] = .error (.illegalInstruction 0xC0) ∧ decode Params.defaults [0xFF] = .error (.illegalInstruction 0xFF) ∧
    decode Params.defaults [] = .error (.missingByte 0) ∧ decode Params.defaults [0x45] = .error (.missingByte 1) ∧
    decode Params.defaults [0xA0] = .error (.missingByte 1) ∧ decode Params.defaults [0xA0, 0] = .error (.missingByte 2) :=
  ⟨rfl, rfl, rfl, rfl, rfl, rfl, rfl⟩

/-- What is left after an instruction is handed back. -/
theorem test_decode_rest : decode Params.defaults [0x46, 1, 0x00] = .ok (.pop 1, [0x00]) := rfl

/-- Log entry 20: bits 7:0 of a table word are the first byte; ADDI's row alone counts from its last byte. -/
theorem test_table_words : decodeTableWord 24 0x0201A0 = some (.add 1 2) ∧ decodeTableWord 16 0x0745 = some (.push 7) ∧
    decodeTableWord 8 0x13 = some .iret ∧ decodeTableWord 8 0x84 = some (.st 0 0) ∧ decodeTableWord 8 0x02 = none :=
  ⟨rfl, rfl, rfl, rfl, rfl⟩

theorem test_table_bytes_addi : tableBytes 24 0x800120 = [0x80, 0x01, 0x20] ∧ tableBytes 24 0xA70FF8 = [0xA7, 0x0F, 0xF8] ∧
    tableBytes 24 0x0201A0 = [0xA0, 0x01, 0x02] := by decide

/-- Log entry 19: a table word placed where reset fetches is what the first step runs. -/
theorem test_withFetchWord_runs : (after (State.reset.withFetchWord 24 0xFF0382)).reg 3 = 0xFF ∧
    (after (State.reset.withFetchWord 8 0x01)).run = .halted := by decide

/-! ## ALU steps (95_test_vectors 2.2) -/

/-- A2, A4. -/
theorem test_add : (after (start 0 [0xA0, 0, 1] [(0, 0xFF), (1, 0x01)])).reg 0 = 0x00 ∧
    (after (start 0 [0xA0, 0, 0] [(0, 0x80)])).reg 0 = 0x00 := by decide

/-- A51: no ALU operation but CMP writes FL. -/
theorem test_add_keeps_flags : (after ((start 0 [0xA0, 0, 1] [(0, 1), (1, 2)]).setFl 0x04)).fl = 0x04 := by decide

/-- A6, A7. -/
theorem test_sub : (after (start 0 [0xA1, 0, 1] [(0, 0), (1, 1)])).reg 0 = 0xFF ∧
    (after (start 0 [0xA1, 0, 1] [(0, 5), (1, 7)])).reg 0 = 0xFE := by decide

/-- A10, A11. -/
theorem test_mul : (after (start 0 [0xA2, 0, 1] [(0, 0xFF), (1, 0xFF)])).reg 0 = 0x01 ∧
    (after (start 0 [0xA2, 0, 1] [(0, 15), (1, 17)])).reg 0 = 0xFF := by decide

/-- A12. -/
theorem test_div : (after (start 0 [0xA3, 0, 1] [(0, 200), (1, 7)])).reg 0 = 28 := by decide

/-- A15 with I8's record. -/
theorem test_div_by_zero : faultOf (after (start 6 [0xA3, 0, 1] [(0, 0x2A)])) =
    some ⟨.divisionByZero, 6, some 0xA3, .operands 0 1⟩ ∧ (after (start 6 [0xA3, 0, 1] [(0, 0x2A)])).reg 0 = 0x2A := by
  decide

/-- A16, A17. -/
theorem test_mod : (after (start 0 [0xA4, 0, 1] [(0, 200), (1, 7)])).reg 0 = 4 ∧
    (after (start 0 [0xA4, 0, 1] [(0, 7), (1, 8)])).reg 0 = 7 := by decide

/-- A50: the register check comes before the zero test. -/
theorem test_div_register_first : faultOf (after (start 0 [0xA3, 8, 1] [])) =
    some ⟨.outOfBounds, 0, some 0xA3, .value 8⟩ := by decide

/-- A20. -/
theorem test_and : (after (start 0 [0xA8, 0, 1] [(0, 0xCA), (1, 0xA6)])).reg 0 = 0x82 := by decide

/-- A21. -/
theorem test_or : (after (start 0 [0xAA, 0, 1] [(0, 0xCA), (1, 0xA6)])).reg 0 = 0xEE := by decide

/-- A22, A23. -/
theorem test_xor : (after (start 0 [0xAB, 0, 1] [(0, 0xCA), (1, 0xA6)])).reg 0 = 0x6C ∧
    (after (start 0 [0xAB, 0, 0] [(0, 0x5A)])).reg 0 = 0x00 := by decide

/-- A26. -/
theorem test_not : (after (start 0 [0x69, 0] [(0, 0x5A)])).reg 0 = 0xA5 ∧ (after (start 0 [0x69, 0] [(0, 0x5A)])).pc = 2 := by
  decide

/-- A28, A30. -/
theorem test_shl : (after (start 0 [0xAC, 0, 1] [(0, 0x81), (1, 1)])).reg 0 = 0x02 ∧
    (after (start 0 [0xAC, 0, 1] [(0, 0x01), (1, 8)])).reg 0 = 0x00 := by decide

/-- A33, A34. -/
theorem test_shr : (after (start 0 [0xAD, 0, 1] [(0, 0x80), (1, 7)])).reg 0 = 0x01 ∧
    (after (start 0 [0xAD, 0, 1] [(0, 0xFF), (1, 8)])).reg 0 = 0x00 := by decide

/-- A36. -/
theorem test_inc : (after (start 0 [0x65, 0] [(0, 0xFF)])).reg 0 = 0x00 := by decide

/-- A38. -/
theorem test_dec : (after (start 0 [0x66, 0] [(0, 0x00)])).reg 0 = 0xFF := by decide

/-- A42, A43: unsigned. -/
theorem test_cmp : (after (start 0 [0xA7, 0, 1] [(0, 0x00), (1, 0xFF)])).fl = 0x04 ∧
    (after (start 0 [0xA7, 0, 1] [(0, 0x80), (1, 0x7F)])).fl = 0x02 := by decide

/-- A44: bits 7:3 of FL are cleared. -/
theorem test_cmp_clears_reserved : (after ((start 0 [0xA7, 0, 1] [(0, 7), (1, 7)]).setFl 0xF8)).fl = 0x01 := by decide

/-- A45, A47, with an `OPC_ADDI` whose A bit is 1 and one whose A bit is 0. -/
theorem test_addi : (after (withParams (withAddi 0xAE) (start 0 [0xAE, 0, 0x20] [(0, 10)]))).reg 0 = 42 ∧
    (after (withParams (withAddi 0x80) (start 0 [0x80, 0, 0xFF] [(0, 5)]))).reg 0 = 4 ∧
    (after (withParams (withAddi 0x80) (start 0 [0x80, 0, 0xFF] [(0, 5)]))).pc = 3 := by decide

/-! ## Load, store and stack steps (95_test_vectors 2.3, 2.4) -/

/-- L2, L1. -/
theorem test_ldi : (after (start 0 [0x82, 7, 0x80] [])).sp = 0x80 ∧ (after (start 0 [0x82, 3, 0xFF] [])).pc = 3 := by decide

/-- L5. -/
theorem test_ld : (after ((start 0 [0x83, 1, 1] [(1, 0x10)]).storeBytes 0x10 [0x2A])).reg 1 = 0x2A := by decide

/-- L7: a draw, and one draw counted. -/
theorem test_ld_draw : (after (start 0 [0x83, 0, 1] [(1, 0xF5)])).reg 0 = Config.scratchDraw 0 ∧
    (after (start 0 [0x83, 0, 1] [(1, 0xF5)])).draws = 1 := ⟨rfl, rfl⟩

/-- L8, L9. -/
theorem test_st : (after (start 0 [0x84, 0, 1] [(0, 0xF8), (1, 0x40)])).mem.read 0xF8 = 0x40 ∧
    (after (start 0 [0x84, 0, 0] [(0, 0x30)])).mem.read 0x30 = 0x30 := by decide

/-- S3, S6. -/
theorem test_push : (after (start 0 [0x45, 7] [])).mem.read 0xF3 = 0xF4 ∧ (after (start 0 [0x45, 7] [])).sp = 0xF3 ∧
    (after (start 0x10 [0x45, 0] [(7, 0x00), (0, 0x11)])).mem.read 0xFF = 0x11 := by decide

/-- S5, S7. -/
theorem test_pop : (after ((start 0 [0x46, 7] [(7, 0xF3)]).storeBytes 0xF3 [0x80])).sp = 0x80 ∧
    (after ((start 0 [0x46, 0] [(7, 0xFF)]).storeBytes 0xFF [0x11])).sp = 0x00 := by decide

/-! ## Control transfer (95_test_vectors 2.5) -/

/-- The row of the table of 2.5 for one jump: PC afterwards for FL = 1, 2, 4, 0, 8. -/
def jumpRow (op : Byte) : List Nat :=
  ([0x01, 0x02, 0x04, 0x00, 0x08] : List Byte).map fun fl => (after ((start 0x05 [op, 0x02] [(2, 0x10)]).setFl fl)).pc

theorem test_jeq : jumpRow 0x55 = [0x10, 0x07, 0x07, 0x07, 0x07] := by decide

theorem test_jne : jumpRow 0x56 = [0x07, 0x10, 0x10, 0x10, 0x10] := by decide

theorem test_jgt : jumpRow 0x57 = [0x07, 0x10, 0x07, 0x07, 0x07] := by decide

theorem test_jlt : jumpRow 0x58 = [0x07, 0x07, 0x10, 0x07, 0x07] := by decide

theorem test_jge : jumpRow 0x5A = [0x10, 0x10, 0x07, 0x07, 0x07] := by decide

theorem test_jle : jumpRow 0x59 = [0x10, 0x07, 0x10, 0x07, 0x07] := by decide

/-- T1, T3. -/
theorem test_jmp : (after (start 5 [0x54, 2] [(2, 0x10)])).pc = 0x10 ∧
    faultOf (after (start 5 [0x54, 9] [])) = some ⟨.outOfBounds, 5, some 0x54, .value 9⟩ := by decide

/-- T4, T7. -/
theorem test_call : (after (start 4 [0x50, 1] [(1, 0x20)])).mem.read 0xF3 = 0x06 ∧
    (after (start 4 [0x50, 1] [(1, 0x20)])).pc = 0x20 ∧ (after (start 4 [0x50, 7] [])).pc = 0xF4 := by decide

/-- T5. -/
theorem test_call_past_top : faultOf (after (start 0xFE [0x50, 1] [(1, 0x20)])) =
    some ⟨.outOfBounds, 0xFE, some 0x50, .value 0x100⟩ ∧ (after (start 0xFE [0x50, 1] [(1, 0x20)])).sp = 0xF4 := by decide

/-- T8. -/
theorem test_ret : (after ((start 0 [0x11] [(7, 0xF3)]).storeBytes 0xF3 [0x06])).pc = 0x06 ∧
    (after ((start 0 [0x11] [(7, 0xF3)]).storeBytes 0xF3 [0x06])).sp = 0xF4 := by decide

/-! ## System (95_test_vectors 2.6) -/

/-- Y1, E5. -/
theorem test_nop : (after (start 7 [0x00] [])).pc = 8 ∧
    faultOf (after (after (start 0xFF [0x00] []))) = some ⟨.outOfBounds, 0x100, none, .value 0x100⟩ := by decide

/-- E4. -/
theorem test_hlt : (after (start 0xFF [0x01] [])).pc = 0x100 ∧ (after (start 0xFF [0x01] [])).run = .halted := by decide

/-- Y3, Y6. -/
theorem test_int : (after (start 0x10 [0x52, 0] [(0, 2)])).is = 0x04 ∧ (after (start 0x10 [0x52, 0] [(0, 2)])).pc = 0x12 ∧
    (after (start 0x10 [0x52, 0] [(6, 1)])).is = 0x01 := by decide

/-- Y4: `INT_ADVANCES_PC` false. -/
theorem test_int_parameter :
    (after (withParams { Params.defaults with intAdvancesPc := false } (start 0x10 [0x52, 0] [(0, 2)]))).is = 0x04 ∧
    (after (withParams { Params.defaults with intAdvancesPc := false } (start 0x10 [0x52, 0] [(0, 2)]))).pc = 0x10 := by
  decide

/-- Y5. -/
theorem test_int_above_seven : faultOf (after (start 0x10 [0x52, 0] [(0, 8)])) =
    some ⟨.outOfBounds, 0x10, some 0x52, .value 8⟩ := by decide

/-- The frame of vector I1, and a block inside its handler. -/
def inHandler : State :=
  ((start 0x40 [0x13] [(7, 0xEB)]).setIe false).storeBytes 0xEB [0x00, 0x01, 5, 4, 3, 2, 1, 0x02, 0x0A]

/-- Y7. -/
theorem test_iret : (after inHandler).regs = #v[1, 2, 3, 4, 5, 0x01, 0x00, 0xF4] ∧ (after inHandler).fl = 0x02 ∧
    (after inHandler).pc = 0x0A ∧ (after inHandler).ie = true := by decide

/-- Y8: `IRET_SETS_IE` false. -/
theorem test_iret_parameter : (after (withParams { Params.defaults with iretSetsIe := false } inHandler)).ie = false ∧
    (after (withParams { Params.defaults with iretSetsIe := false } inHandler)).pc = 0x0A := by decide

/-- Y10. -/
theorem test_prn : (after (start 0 [0x47, 0] [(0, 255)])).out = [⟨.num, 255⟩] := by decide

/-- Y11. -/
theorem test_pra : (after (start 0 [0x48, 1] [(1, 0x41)])).out = [⟨.chr, 0x41⟩] := by decide

/-! ## The cycle, faults and interrupts (95_test_vectors 2.1, 2.7) -/

/-- E1, E6. -/
theorem test_illegal_opcode : faultOf (after (start 0 [0xC0] [])) =
    some ⟨.illegalInstruction, 0, some 0xC0, .opcodeByte 0xC0⟩ ∧ faultOf (after (start 0xFF [0xFF] [])) =
    some ⟨.illegalInstruction, 0xFF, some 0xFF, .opcodeByte 0xFF⟩ := by decide

/-- E3, I9: the operand fetch faults before the instruction does. -/
theorem test_operand_fetch : faultOf (after (start 0xFE [0x82, 0] [])) =
    some ⟨.outOfBounds, 0xFE, some 0x82, .value 0x100⟩ ∧ faultOf (after (start 0xFE [0xA3, 0] [])) =
    some ⟨.outOfBounds, 0xFE, some 0xA3, .value 0x100⟩ := by decide

/-- R81, R92, R94: the operand count and the sets-PC bit are those of the opcode byte, here of a NOP at 0x40 with an
operand byte that it ignores, and of a NOP at 0x10 that never moves PC. -/
theorem test_opcode_bits_rule : (after (withParams (withMap { OpcodeMap.defaults with nop := 0x40 }) (start 0 [0x40, 9] []))).pc = 2 ∧
    (after (withParams (withMap { OpcodeMap.defaults with nop := 0x10 }) (start 5 [0x10] []))).pc = 5 := by decide

/-- R90 step 7: HLT is dispatched before the ALU test, so a HLT at 0x21 halts. -/
theorem test_hlt_before_alu : (after (withParams (withMap { OpcodeMap.defaults with hlt := 0x21 }) (start 0 [0x21] []))).run =
    .halted := by decide

/-- E9. -/
theorem test_halted_reads_no_sample : after (withSample (some 0x61) true ((start 0 [0x65, 0] []).setRun .halted)) =
    withSample (some 0x61) true ((start 0 [0x65, 0] []).setRun .halted) := rfl

/-- The start of vector I1. -/
def beforeEntry : State :=
  ((withR [(0, 1), (1, 2), (2, 3), (3, 4), (4, 5), (5, 1), (6, 1)]).setPc 0x0A).setFl 0x02 |>.storeBytes 0xF8 [0x40]

/-- I1: the frame, from M[0xEB] up. -/
theorem test_entry_frame : (List.range 9).map (fun k => (after beforeEntry).mem.read (0xEB + k)) =
    [0x00, 0x01, 5, 4, 3, 2, 1, 0x02, 0x0A] := by decide

/-- I1: the rest. -/
theorem test_entry : (after beforeEntry).sp = 0xEB ∧ (after beforeEntry).is = 0x00 ∧ (after beforeEntry).ie = false ∧
    (after beforeEntry).pc = 0x40 := by decide

/-- I2: the lowest line. -/
theorem test_entry_priority : (after ((withR [(5, 0xFF), (6, 0x06)]).storeBytes 0xF9 [0x30])).pc = 0x30 ∧
    (after ((withR [(5, 0xFF), (6, 0x06)]).storeBytes 0xF9 [0x30])).is = 0x04 := by decide

/-- I3, I4. -/
theorem test_polls : (after (withSample none true ((start 0 [0x00] [(5, 1)]).setIe false))).is = 0x01 ∧
    (after (withSample none true ((start 0 [0x00] [(5, 1)]).setIe false))).pc = 1 ∧
    (after (withSample (some 0x61) false (start 0 [0x00] []))).mem.read 0xF4 = 0x61 ∧
    (after (withSample (some 0x61) false (start 0 [0x00] []))).is = 0x02 := by decide

/-- I5: a key and a tick in one cycle. -/
theorem test_key_and_tick : (after (withSample (some 0x61) true (withR [(5, 0x03)]))).is = 0x02 ∧
    (after (withSample (some 0x61) true (withR [(5, 0x03)]))).mem.read 0xEB = 0x02 := by decide

/-- R205: other lines for the timer and the keyboard. -/
theorem test_poll_lines :
    (after (withParams { Params.defaults with timerLine := 3, keyLine := 7 } (withSample (some 0x61) true (start 0 [0x00] [])))).is =
      0x88 := by decide

/-- R207, R243: from reset, with nothing known of the outside, each cycle's samples are free values of its own. -/
theorem test_samples_from_reset : State.reset.sample = ⟨Config.keyDraw 0, Config.tickDraw 0⟩ ∧
    (State.reset.takeSample).sample = ⟨Config.keyDraw 1, Config.tickDraw 1⟩ := ⟨rfl, rfl⟩

/-- I7: the entry itself faults. -/
theorem test_entry_fault : faultOf (after (withSample none true ((withR [(5, 0x01)]).setPc 0x100))) =
    some ⟨.outOfBounds, 0x100, none, .value 0x100⟩ ∧
    (after (withSample none true ((withR [(5, 0x01)]).setPc 0x100))).ie = false ∧
    (after (withSample none true ((withR [(5, 0x01)]).setPc 0x100))).mem = [] := by decide

/-! ## Memory and load (95_test_vectors 2.8, 2.9) -/

/-- M3, and the canonical form: writing what an unlisted cell reads as takes the entry away. -/
theorem test_memory : (Memory.write [] 0x10 0x2A).read 0x10 = 0x2A ∧ Memory.write [(0x10, 0x2A)] 0x10 0x00 = [] ∧
    Memory.write [(0x20, 1)] 0x10 0x2A = [(0x10, 0x2A), (0x20, 1)] := by decide

/-- The five codes of R200. -/
theorem test_fault_codes : [FaultKind.illegalInstruction, .unsupportedOperation, .divisionByZero, .programLoadError,
    .outOfBounds].map FaultKind.code = [1, 2, 3, 4, 5] := rfl

/-- B1. -/
theorem test_boot : (boot [some 0x82, some 0, some 8, some 0x47, some 0, some 1]).mem =
    [(0, 0x82), (2, 8), (3, 0x47), (5, 1)] := by decide

/-- B3, B4. -/
theorem test_boot_malformed : faultOf (boot [some 0x82, some 256]) = some ⟨.programLoadError, 0, none, .position 1⟩ ∧
    faultOf (boot [none]) = some ⟨.programLoadError, 0, none, .position 0⟩ := by decide

/-! ## Witnesses: for each statement with hypotheses, a state and operands that meet them all; for each clause, a boundary
value of its range -/

/-- An image of 256 bytes loads; one more line is malformed. -/
theorem witness_BootLoadsImageFromZero : (List.replicate 0x100 (0x01 : Byte)).length ≤ 0x100 ∧
    ([] : List Byte).length ≤ 0x100 := ⟨by rw [List.length_replicate], by decide⟩

theorem witness_MalformedImageRaisesLoadError : (List.replicate 0x100 (0x01 : Byte)).length = 0x100 ∧
    (∀ v, (none : Option Nat) = some v → 0xFF < v) ∧ ∀ v, some 0x100 = some v → 0xFF < v :=
  ⟨List.length_replicate, fun _ h => (by cases h), fun _ h => (by cases h; decide)⟩

/-- The cells at both ends of the draw cells, the last cell and the first address past it. -/
theorem witness_MemReadAnswersCellOrDraw : memRead 0x100 inHandler = .error 0x100 ∧
    memRead 0xFF inHandler = .ok (0x00, inHandler) ∧ memRead 0xF4 inHandler = .ok (0x00, inHandler) ∧
    memRead 0xF5 inHandler = .ok (Config.scratchDraw 0, { inHandler with draws := 1 }) ∧
    memRead 0xF7 inHandler = .ok (Config.scratchDraw 0, { inHandler with draws := 1 }) ∧
    memRead 0xF8 inHandler = .ok (0x00, inHandler) :=
  ⟨rfl, rfl, rfl, rfl, rfl, rfl⟩

/-- The greatest value that is pushed, and the least that is not; SP at 0 wraps. -/
theorem witness_PushWritesBelowOldTop : push 0x100 State.reset = .error 0x100 ∧
    (match push 0xFF (withR [(7, 0x00)]) with
      | .ok t => t.sp = 0xFF ∧ t.mem.read 0xFF = 0xFF
      | .error _ => False) := by
  refine ⟨rfl, ?_⟩
  show State.sp (State.pushByte _ _) = _ ∧ _
  decide

theorem witness_DecodeOfEncodeIsIdentity : Params.defaults.WellFormed ∧ (withAddi 0x80).WellFormed ∧
    (withMap { OpcodeMap.defaults with add := 0xA1, sub := 0xA0 }).opcodeMap ≠ OpcodeMap.defaults :=
  ⟨Params.defaults_wellFormed, by decide, by decide⟩

theorem witness_DecodedBytesAreItsEncoding : Params.defaults.WellFormed ∧
    decode Params.defaults [0x45, 0x07, 0x01] = .ok (.push 7, [0x01]) := ⟨Params.defaults_wellFormed, rfl⟩

theorem witness_OpcodeBitsDescribeInstruction : (Instr.add 0 1).mnemonic ≠ .addi := by decide

theorem witness_IllegalOpcodeBytesCounted : 0xC0 ≤ (0xC0 : Byte).toNat ∧ 0xC0 ≤ (0xFF : Byte).toNat := by decide

/-- The last address of a three-byte instruction below the draw cells. -/
def aboutToAdd : State := start 0xF2 [0xA0, 0, 1] [(0, 1), (1, 2)]

theorem witness_StepRunsDecodedInstruction : aboutToAdd.run = .running ∧ aboutToAdd.params.WellFormed ∧
    activeLine (polled aboutToAdd) = none ∧
    decode aboutToAdd.params (bytesFrom (polled aboutToAdd) aboutToAdd.pc) =
      .ok (.add 0 1, (bytesFrom (polled aboutToAdd) aboutToAdd.pc).drop 3) ∧
    NoScratch aboutToAdd.pc (encode aboutToAdd.params (.add 0 1)).length := by
  refine ⟨rfl, Params.defaults_wellFormed, by decide, rfl, ?_⟩
  show ∀ j, j < 3 → 0xF2 + j < 0xF5 ∨ 0xF7 < 0xF2 + j
  decide

/-- Both ends of PC's range, and an instruction that begins below the draw cells and ends in one. -/
theorem witness_FetchReadsCellsOrDraws : (withR []).run = .running ∧ (withR []).params.WellFormed ∧
    activeLine (polled (withR [])) = none ∧ (withR []).pc ≤ 0xFD ∧ ((withR []).setPc 0xFD).pc ≤ 0xFD ∧
    scratchCount 0xF3 3 = 1 ∧ scratchCount 0xF7 3 = 1 ∧ fetchView (start 0xF3 [0x82, 0] []) 2 = Config.scratchDraw 0 :=
  ⟨rfl, withR_wellFormed _, by decide, by decide, by decide, by decide, by decide, rfl⟩

/-- PC just past the cells; an illegal byte in the last cell; an operand byte past it, for one and for two operands. -/
theorem witness_FetchFaults : ((withR []).setPc 0x100).run = .running ∧
    activeLine (polled ((withR []).setPc 0x100)) = none ∧ 0xFF < ((withR []).setPc 0x100).pc ∧
    (start 0xFF [0xC1] []).run = .running ∧ activeLine (polled (start 0xFF [0xC1] [])) = none ∧
    decodeOpcode Params.defaults ((polled (start 0xFF [0xC1] [])).mem.read 0xFF) = none ∧
    decodeOpcode Params.defaults ((polled (start 0xFF [0x45] [])).mem.read 0xFF) ≠ none ∧ 0xFF < 0xFF + operandCount 0x45 ∧
    decodeOpcode Params.defaults ((polled (start 0xFE [0xA0, 0] [])).mem.read 0xFE) ≠ none ∧
    0xFF < 0xFE + operandCount 0xA0 ∧ NoScratch 0xFE 1 ∧ NoScratch 0xFF 1 := by
  refine ⟨rfl, by decide, by decide, rfl, by decide, by decide, by decide, by decide, by decide,
    by decide, ?_, ?_⟩ <;>
    intro j hj <;> omega

/-- NOP in the last cell: PC goes to 0x100. -/
theorem witness_PcAdvancesUnlessInstructionSetsIt : exec .nop (State.reset.setPc 0xFF) = .next (State.reset.setPc 0x100) ∧
    NoFault (State.reset.setPc 0x100) ∧ setsPcBit (State.reset.params.opcode Instr.nop.mnemonic) = false :=
  ⟨rfl, fun _ h => (by cases h), by decide⟩

theorem witness_FinalStatesRunNoCycle : (State.reset.setRun .halted).run = .halted ∧
    (State.reset.setRun (.faulted ⟨.outOfBounds, 0, none, .value 0x100⟩)).run =
      .faulted ⟨.outOfBounds, 0, none, .value 0x100⟩ := ⟨rfl, rfl⟩

theorem witness_AddSubMulWrapModulo256 : (withR []).params.WellFormed := withR_wellFormed []

theorem witness_DivModQuotientRemainder : (withR []).params.WellFormed ∧ (withR [(1, 1)]).reg 1 ≠ 0 ∧
    (withR [(1, 0xFF)]).reg 1 ≠ 0 := ⟨withR_wellFormed _, by decide⟩

theorem witness_DivModByZeroFault : (withR [(0, 5)]).reg 1 = 0 := by decide

theorem witness_LogicWorksBitwise : (withR []).params.WellFormed := withR_wellFormed []

theorem witness_ShiftsTakeWholeCount : (withR []).params.WellFormed := withR_wellFormed []

theorem witness_IncDecAddiWrapModulo256 : (withR []).params.WellFormed := withR_wellFormed []

/-- Each of the three cases, at neighbouring values. -/
theorem witness_CompareSetsExactlyOneFlag : (withR []).params.WellFormed ∧
    (did (.cmp 0 1) (withR [(0, 0x7F), (1, 0x7F)])).fl = 1 ∧ (did (.cmp 0 1) (withR [(0, 0x80), (1, 0x7F)])).fl = 2 ∧
    (did (.cmp 0 1) (withR [(0, 0x7F), (1, 0x80)])).fl = 4 := ⟨withR_wellFormed _, by decide⟩

theorem witness_LoadImmediateWritesRegister : (withR []).params.WellFormed := withR_wellFormed []

/-- LD from the cells beside the draw cells and from the first and last of those. -/
theorem witness_LoadReadsAddressedCell : (withR []).params.WellFormed ∧
    (did (.ld 0 1) ((withR [(1, 0xF4)]).storeBytes 0xF4 [0x61])).reg 0 = 0x61 ∧
    (did (.ld 0 1) ((withR [(1, 0xF8)]).storeBytes 0xF8 [0x40])).reg 0 = 0x40 ∧
    (did (.ld 0 1) (withR [(1, 0xF5)])).reg 0 = Config.scratchDraw 0 ∧
    (did (.ld 0 1) (withR [(1, 0xF7)])).reg 0 = Config.scratchDraw 0 := ⟨withR_wellFormed _, by decide, by decide, rfl, rfl⟩

theorem witness_StoreWritesAddressedCell : (withR []).params.WellFormed := withR_wellFormed []

theorem witness_PushStoresRegisterBelowTop : (withR []).params.WellFormed := withR_wellFormed []

/-- POP from the cells beside the draw cells and from the first and last of those; a register other than R7. -/
theorem witness_PopLoadsRegisterFromTop : (withR []).params.WellFormed ∧
    (did (.pop 0) ((withR [(7, 0xF4)]).storeBytes 0xF4 [0x61])).reg 0 = 0x61 ∧
    (did (.pop 0) ((withR [(7, 0xF8)]).storeBytes 0xF8 [0x40])).reg 0 = 0x40 ∧
    (did (.pop 0) (withR [(7, 0xF5)])).reg 0 = Config.scratchDraw 0 ∧
    (did (.pop 0) (withR [(7, 0xF7)])).reg 0 = Config.scratchDraw 0 ∧ (0 : RegIx) ≠ 7 :=
  ⟨withR_wellFormed _, by decide, by decide, rfl, rfl, by decide⟩

/-- The tops beside those that are left out: 0xF5 pushes to 0xF4, 0xF9 to 0xF8. -/
theorem witness_PushThenPopRestoresRegisters : (withR []).params.WellFormed ∧
    ¬ (0xF6 ≤ (withR [(7, 0xF5)]).sp.toNat ∧ (withR [(7, 0xF5)]).sp.toNat ≤ 0xF8) ∧
    ¬ (0xF6 ≤ (withR [(7, 0xF9)]).sp.toNat ∧ (withR [(7, 0xF9)]).sp.toNat ≤ 0xF8) := ⟨withR_wellFormed _, by decide⟩

theorem witness_JumpsFollowFlags : (withR []).params.WellFormed := withR_wellFormed []

/-- The last address a CALL completes at. -/
theorem witness_CallPushesReturnAddress : (withR []).params.WellFormed ∧
    ((withR []).setPc 0xFD).pc + 2 ≤ 0xFF := ⟨withR_wellFormed _, by decide⟩

/-- The first address it faults at. -/
theorem witness_CallPastTopFaults : 0xFF < (State.reset.setPc 0xFE).pc + 2 := by decide

/-- RET with SP at the cells beside the draw cells and at the first and last of those. -/
theorem witness_ReturnPopsProgramCounter : (withR []).params.WellFormed ∧
    (did .ret ((withR [(7, 0xF4)]).storeBytes 0xF4 [0x61])).pc = 0x61 ∧
    (did .ret ((withR [(7, 0xF8)]).storeBytes 0xF8 [0x40])).pc = 0x40 ∧
    (did .ret (withR [(7, 0xF5)])).pc = (Config.scratchDraw 0).toNat ∧
    (did .ret (withR [(7, 0xF7)])).pc = (Config.scratchDraw 0).toNat := ⟨withR_wellFormed _, by decide, by decide, rfl, rfl⟩

theorem witness_CallThenReturnComesBack : (withR []).params.WellFormed ∧
    ((withR [(7, 0xF5)]).setPc 0xFD).pc + 2 ≤ 0xFF ∧
    ¬ (0xF6 ≤ ((withR [(7, 0xF5)]).setPc 0xFD).sp.toNat ∧ ((withR [(7, 0xF5)]).setPc 0xFD).sp.toNat ≤ 0xF8) := ⟨withR_wellFormed _, by decide⟩

theorem witness_NopAdvancesAndHltHalts : (withR []).params.WellFormed := withR_wellFormed []

theorem witness_IntSetsPendingBit : (withR []).params.WellFormed ∧
    ((withR [(0, 7)]).reg 0).toNat ≤ 7 := ⟨withR_wellFormed _, by decide⟩

theorem witness_IntLineAboveSevenFaults : 7 < ((withR [(0, 8)]).reg 0).toNat := by decide

theorem witness_ParametersChangeOnlyPcAndLatch : (withR []).params.WellFormed ∧
    ((withR [(0, 7)]).reg 0).toNat ≤ 7 ∧
    (did (.int 0) (withR [(0, 7)])).pc = 2 := ⟨withR_wellFormed _, by decide⟩

theorem witness_IretPopsContext : (withR []).params.WellFormed := withR_wellFormed []

theorem witness_PrnPraEmitOneEvent : (withR []).params.WellFormed := withR_wellFormed []

/-- The first bad byte of each operand, a before b. -/
theorem witness_RegisterOperandOutOfRangeFaults : badOperand (.add 8 9) = some 8 ∧ badOperand (.add 7 8) = some 8 ∧
    badOperand (.push 0xFF) = some 0xFF ∧ badOperand (.add 7 7) = none := by decide

/-- Each row of the table: a bad operand, division by zero, CALL at 0xFE and 0xFD, lines 8 and 7, and no fault. -/
theorem witness_InstructionFaultsExactlyAsTabled : NoFault State.reset ∧
    expectedFault (.st 8 0) State.reset = some (.outOfBounds, .value 8) ∧
    expectedFault (.div 0 1) State.reset = some (.divisionByZero, .operands 0 1) ∧
    expectedFault (.call 0) (State.reset.setPc 0xFE) = some (.outOfBounds, .value 0x100) ∧
    expectedFault (.call 0) (State.reset.setPc 0xFD) = none ∧
    expectedFault (.int 0) (withR [(0, 8)]) = some (.outOfBounds, .value 8) ∧
    expectedFault (.int 0) (withR [(0, 7)]) = none ∧ expectedFault .iret State.reset = none :=
  ⟨fun _ h => (by cases h), by decide, by decide, by decide, by decide, by decide, by decide, by decide⟩

theorem witness_FaultRecordNamesFaultingPc : (start 6 [0xA3, 0, 1] []).run = .running ∧
    step (start 6 [0xA3, 0, 1] []) = .next (after (start 6 [0xA3, 0, 1] [])) ∧
    (after (start 6 [0xA3, 0, 1] [])).run = .faulted ⟨.divisionByZero, 6, some 0xA3, .operands 0 1⟩ := ⟨rfl, rfl, rfl⟩

theorem witness_UnfaultedMachineAlwaysSteps : NoFault State.reset ∧ NoFault (State.reset.setRun .halted) :=
  ⟨fun _ h => (by cases h), fun _ h => (by cases h)⟩

/-- A key and a tick together. -/
theorem witness_PollsStoreKeyAndSetPending : (polls ⟨some 0x61, true⟩ State.reset).is = 0x03 ∧
    polls ⟨none, false⟩ State.reset = State.reset := ⟨by decide, rfl⟩

/-- Lines 0 and 7 taken, with IE = 1; IE = 0; and no line both masked in and pending. -/
theorem witness_InterruptCheckTakesLowestLine :
    (polled (withR [(5, 0x81), (6, 0x81)])).ie = true ∧ ((polled (withR [(5, 0x81), (6, 0x81)])).reg 5).getLsbD 0 = true ∧
    ((polled (withR [(5, 0x81), (6, 0x81)])).reg 6).getLsbD 0 = true ∧
    ((polled (withR [(5, 0xFF), (6, 0x80)])).reg 5).getLsbD 7 = true ∧
    ((polled (withR [(5, 0xFF), (6, 0x80)])).reg 6).getLsbD 7 = true ∧
    (∀ j : Fin 8, j < 7 → (((polled (withR [(5, 0xFF), (6, 0x80)])).reg 5).getLsbD j &&
      ((polled (withR [(5, 0xFF), (6, 0x80)])).reg 6).getLsbD j) = false) ∧
    (polled ((withR [(5, 0x01), (6, 0x01)]).setIe false)).ie = false ∧
    (polled (withR [(5, 0x02), (6, 0x01)])).reg 5 &&& (polled (withR [(5, 0x02), (6, 0x01)])).reg 6 = 0 := by decide

/-- Vector I1, and a state whose check fails. -/
theorem witness_EntryCycleRunsNoInstruction : beforeEntry.run = .running ∧ activeLine (polled beforeEntry) = some 0 ∧
    (after beforeEntry).run = .running ∧ activeLine (polled (withR [])) = none := by decide

/-- The greatest PC that an entry saves. -/
theorem witness_InterruptEntrySavesContext : (State.reset.setPc 0xFF).pc ≤ 0xFF := by decide

/-- The least PC it cannot save, and the greatest that occurs. -/
theorem witness_InterruptEntryPastTopFaults : 0xFF < (State.reset.setPc 0x100).pc ∧ 0xFF < (State.reset.setPc 0x102).pc := by
  decide

/-- A handler that changed R0, and the highest frame below the draw cells, from SP = 0xF5. -/
theorem witness_IretUndoesInterruptEntry : (withR [(7, 0xF5)]).pc ≤ 0xFF ∧
    (did (.ldi 0 9) (interruptEntry 1 (withR [(7, 0xF5)]))).params.WellFormed ∧
    (∀ n, n < 9 → ¬ (0xF5 ≤ ((withR [(7, 0xF5)]).sp.toNat + 247 + n) % 256 ∧
      ((withR [(7, 0xF5)]).sp.toNat + 247 + n) % 256 ≤ 0xF7)) ∧
    (did (.ldi 0 9) (interruptEntry 1 (withR [(7, 0xF5)]))).sp = (interruptEntry 1 (withR [(7, 0xF5)])).sp ∧
    (∀ n, n < 9 → (did (.ldi 0 9) (interruptEntry 1 (withR [(7, 0xF5)]))).mem.read
        (((withR [(7, 0xF5)]).sp.toNat + 247 + n) % 256) =
      (interruptEntry 1 (withR [(7, 0xF5)])).mem.read (((withR [(7, 0xF5)]).sp.toNat + 247 + n) % 256)) :=
  ⟨by decide, withR_wellFormed [], by decide⟩

theorem witness_StepKeepsMachineInvariant : Inv (withR []) ∧ step (withR []) = .next (after (withR [])) ∧
    Inv (after (withR [])) :=
  ⟨⟨by decide, by decide, withR_wellFormed _⟩, rfl, ⟨by decide, by decide, withR_wellFormed []⟩⟩

theorem witness_OnlyCmpAndIretChangeFlags :
    step (start 0 [0xA7, 0, 1] []) = .next (after (start 0 [0xA7, 0, 1] [])) ∧
    (after (start 0 [0xA7, 0, 1] [])).fl ≠ (start 0 [0xA7, 0, 1] []).fl := ⟨rfl, by decide⟩

/-- IE set by an IRET; IE cleared by an entry. -/
theorem witness_LatchChangesOnlyByEntryAndIret : step inHandler = .next (after inHandler) ∧ inHandler.ie = false ∧
    (after inHandler).ie = true ∧ step beforeEntry = .next (after beforeEntry) ∧ beforeEntry.ie = true ∧
    (after beforeEntry).ie = false := ⟨rfl, rfl, rfl, rfl, rfl, rfl⟩

theorem witness_OutputGrowsByOneEvent : step (start 0 [0x47, 0] [(0, 8)]) = .next (after (start 0 [0x47, 0] [(0, 8)])) ∧
    (after (start 0 [0x47, 0] [(0, 8)])).out = [⟨.num, 8⟩] := ⟨rfl, by decide⟩

theorem witness_HaltReachedOnlyByHlt : (start 0xFF [0x01] []).run = .running ∧
    step (start 0xFF [0x01] []) = .next (after (start 0xFF [0x01] [])) ∧ (after (start 0xFF [0x01] [])).run = .halted :=
  ⟨rfl, rfl, rfl⟩

/-- Two states that differ in what 0xF5 and 0xF7 hold. -/
theorem witness_DrawCellContentsUnobservable :
    AgreeOffScratch (State.reset.store 0xF5 1) (State.reset.store 0xF7 2) ∧
      State.reset.store 0xF5 1 ≠ State.reset.store 0xF7 2 := by
  refine ⟨⟨rfl, rfl, rfl, rfl, rfl, rfl, rfl, rfl, rfl, rfl, fun a h => ?_⟩, by decide⟩
  have h5 : a ≠ (0xF5 : Byte).toNat := by
    have : (0xF5 : Byte).toNat = 0xF5 := rfl
    omega
  have h7 : a ≠ (0xF7 : Byte).toNat := by
    have : (0xF7 : Byte).toNat = 0xF7 := rfl
    omega
  rw [State.store_read, State.store_read, if_neg h5, if_neg h7]

/-- A block whose map gives LD, which the ALU does not perform, a byte with its ALU bit set. -/
def offLayout : State :=
  withParams (withMap { OpcodeMap.defaults with ld := 0xAE }) (start 0xF2 [0xAE, 0, 1] [])

theorem witness_UnsupportedOperationRaisedOffLayout : offLayout.run = .running ∧ activeLine (polled offLayout) = none ∧
    (polled offLayout).mem.read offLayout.pc = 0xAE ∧ NoScratch offLayout.pc (1 + operandCount 0xAE) ∧
    offLayout.pc + operandCount 0xAE ≤ 0xFF ∧ decodeOpcode offLayout.params 0xAE = some .ld ∧
    aluBit 0xAE = true ∧ Mnemonic.ld.aluPerforms = false ∧ Mnemonic.ld ≠ .hlt ∧
    faultOf (after offLayout) = some ⟨.unsupportedOperation, 0xF2, some 0xAE, .opcodeByte 0xAE⟩ := by
  refine ⟨rfl, by decide, by decide, ?_, by decide, by decide, by decide, by decide, by decide, by decide⟩
  show ∀ j, j < 3 → 0xF2 + j < 0xF5 ∨ 0xF7 < 0xF2 + j
  decide

theorem witness_ParametersNeverChange : step (withR []) = .next (after (withR [])) ∧
    (after offLayout).params.opcodeMap.ld = 0xAE := ⟨rfl, rfl⟩

/-- A sample that is listed, and the free ones past the list's end; a step takes one. -/
theorem witness_EveryCycleTakesItsSamples : State.reset.inputs = [] ∧ (withR []).run = .running ∧
    (withR []).inputs = ⟨none, false⟩ :: (after (withR [])).inputs ∧ step (withR []) = .next (after (withR [])) ∧
    (after (withR [])).cycles = 1 := ⟨rfl, rfl, rfl, rfl, rfl⟩

/-- A booted image runs; with IM = 0 and every line pending no entry is made. -/
theorem witness_NoInterruptBeforeMaskIsSet : (boot [some 0x82, some 5, some 1]).run = .running ∧
    (withR [(6, 0xFF)]).run = .running ∧ (withR [(6, 0xFF)]).reg 5 = 0 ∧ (after (withR [(6, 0xFF)])).pc = 1 := by decide

end Sys2Proof.Tests
end

section
/-! PROOF. The scope's statements (spec 00_scope): decoding undoes encoding (R80 to R87), the parameters of R9 never change,
and each cycle takes one pair of samples (R7). -/

namespace Sys2Proof

/-- Taking as many operand bytes as the mnemonic has, from the bytes of an instruction, gives bytes from which the mnemonic
makes the instruction again, and leaves what follows it (R80, R83). -/
theorem takeOperands_operandBytes (i : Instr) (rest : List Byte) :
    ∃ a b, takeOperands i.mnemonic.operands (i.operandBytes ++ rest) = .ok (a, b, rest) ∧ i.mnemonic.assemble a b = i := by
  cases i with
  | nop | hlt | ret | iret => exact ⟨Config.missingOperand 1, Config.missingOperand 2, rfl, rfl⟩
  | push a | pop a | prn a | pra a | call a | int a | jmp a | jeq a | jne a | jgt a | jlt a | jle a | jge a | inc a | dec a
  | not a => exact ⟨a, Config.missingOperand 2, rfl, rfl⟩
  | ldi a b | ld a b | st a b | add a b | sub a b | mul a b | div a b | mod a b | cmp a b | and a b | or a b | xor a b
  | shl a b | shr a b | addi a b => exact ⟨a, b, rfl, rfl⟩

/-- Settles O6: the opcode byte decodes to its mnemonic, its operand count is the mnemonic's, and the operand bytes make the
instruction again. -/
theorem decodeOfEncodeIsIdentity : Obligations.DecodeOfEncodeIsIdentity := by
  intro p i rest hp
  obtain ⟨a, b, htake, hmake⟩ := takeOperands_operandBytes i rest
  simp only [encode, List.cons_append, decode, hp.decodeOpcode_opcode, hp.operandCount_opcode, htake, hmake]

end Sys2Proof

namespace Sys2Proof.Machine

/-! ## No instruction, fetch, entry or load touches the samples to come, their count or the parameters -/

/-- R7, R9: whatever an instruction does, the samples to come and the parameters are as before. -/
theorem Effect.sameOutside {i : Instr} {s t : State} (h : Effect i s t) : SameOutside s t := by
  cases h with
  | irets =>
    obtain ⟨-, -, -, hsame, -⟩ := interruptReturn_rest s
    simpa [SameOutside] using hsame
  | faults | halts => exact ⟨rfl, rfl, rfl⟩
  | advances | writesReg | loads | compares | stores | pushes | pops | emits | jumps | fallsThrough | calls | returns
  | pends => simp [SameOutside]

/-- An interrupt entry, a fault in the fetch and an instruction each leave the samples to come and the parameters as the
polls left them (R90). -/
theorem step_sameOutside_polled {s t : State} (hrun : s.run = .running) (hstep : step s = .next t) :
    SameOutside (polled s) t := by
  rcases step_running_cases s hrun with ⟨i, -, e⟩ | ⟨-, u, hfetch, e⟩ | ⟨-, i, u, hfetch, e⟩
  · obtain ⟨-, -, hsame, -⟩ := interruptEntry_rest (polled s) i
    cases e.symm.trans hstep
    exact hsame
  · obtain ⟨k, op, info, v, rfl, hv, -⟩ := fetch_error hfetch
    cases e.symm.trans hstep
    rw [hv]
    exact ⟨rfl, rfl, rfl⟩
  · obtain ⟨hu, -⟩ := fetch_ok hfetch
    have hsame : SameOutside u t := (effect_of_exec u (e.symm.trans hstep)).sameOutside
    rw [hu] at hsame
    exact hsame

/-- The load port answers where the address and the byte exist, and then stores the byte (R242). -/
theorem writeMemory_eq_some {a v : Nat} {s t : State} :
    writeMemory a v s = some t ↔ (a ≤ 0xFF ∧ v ≤ 0xFF) ∧ s.store (BitVec.ofNat 8 a) (BitVec.ofNat 8 v) = t := by
  simp [writeMemory]

/-- A load writes memory and may raise; it lists no sample and changes no parameter (R242). -/
theorem loadLines_sameOutside (image : List (Option Nat)) (k : Nat) (s : State) : SameOutside s (loadLines k image s) := by
  induction image generalizing k s with
  | nil => exact ⟨rfl, rfl, rfl⟩
  | cons line rest ih =>
    unfold loadLines
    split
    next t e =>
      obtain ⟨v, -, hv⟩ := Option.bind_eq_some_iff.1 e
      obtain ⟨-, rfl⟩ := writeMemory_eq_some.1 hv
      exact ih _ _
    next => exact ⟨rfl, rfl, rfl⟩

/-- A boot leaves the samples to come, their count and the parameters as reset has them (R241). -/
theorem boot_sameOutside (image : List (Option Nat)) : SameOutside State.reset (boot image) :=
  loadLines_sameOutside image 0 State.reset

/-- Every step keeps the parameters: a cycle by its frame, a Halted block since it steps to itself (R9, R95). -/
theorem step_params {s t : State} (hstep : step s = .next t) : t.params = s.params := by
  cases hrun : s.run with
  | running =>
    obtain ⟨-, -, hparams⟩ := step_sameOutside_polled hrun hstep
    obtain ⟨-, -, -, -, -, -, hpolled, -⟩ := polled_fields s
    exact hparams.trans hpolled
  | halted =>
    cases ((step_stopped s).1 hrun).symm.trans hstep
    rfl
  | faulted r => cases ((step_stopped s).2 r hrun).symm.trans hstep

/-- A cycle takes one pair of samples: the count grows by one, and the list, if not at its end, loses its head (R7). -/
theorem step_takes_sample {s t : State} (hrun : s.run = .running) (hstep : step s = .next t) :
    t.cycles = s.cycles + 1 ∧ t.inputs = s.inputs.tail := by
  obtain ⟨hinputs, hcycles, -⟩ := step_sameOutside_polled hrun hstep
  obtain ⟨-, -, -, -, -, -, -, hcount, htail, -⟩ := polled_fields s
  exact ⟨hcycles.trans hcount, hinputs.trans htail⟩

theorem State.sample_nil {s : State} (h : s.inputs = []) :
    s.sample = ⟨Config.keyDraw s.cycles, Config.tickDraw s.cycles⟩ := by
  simp only [State.sample, h]

theorem State.sample_cons {s : State} {i : Sample} {rest : List Sample} (h : s.inputs = i :: rest) : s.sample = i := by
  simp only [State.sample, h]

/-- Settles O58, by the frames of the load and of the step. -/
theorem parametersNeverChange : Obligations.ParametersNeverChange := by
  refine ⟨fun image => ?_, fun s t => step_params⟩
  obtain ⟨-, -, hparams⟩ := boot_sameOutside image
  exact hparams

/-- Settles O59: a boot lists no sample and counts no cycle, and a step takes one pair of samples. -/
theorem everyCycleTakesItsSamples : Obligations.EveryCycleTakesItsSamples := by
  refine ⟨⟨rfl, fun image => ?_⟩, fun s => State.sample_nil, fun s i rest => State.sample_cons,
    fun s t => step_takes_sample⟩
  obtain ⟨hinputs, hcycles, -⟩ := boot_sameOutside image
  exact ⟨hinputs, hcycles⟩

end Sys2Proof.Machine
end

section
/-! PROOF. The state's statements (spec 10_state): what reset leaves (R35), who writes FL, IE, the output and the run state
(R27, R30 to R32), and the invariant that reset meets and every step keeps (R24). -/

namespace Sys2Proof.Machine

/-! ## Reset and the final states -/

/-- Settles O1: each field as `State.reset` writes it; no cell is listed, so each reads as 0x00. -/
theorem resetLeavesListedValues : Obligations.ResetLeavesListedValues :=
  ⟨by decide, rfl, rfl, rfl, rfl, rfl, fun _ => rfl⟩

/-- Settles O15: a step of a block that is not Running, in both cases. -/
theorem finalStatesRunNoCycle : Obligations.FinalStatesRunNoCycle :=
  ⟨fun s => (step_stopped s).1, fun s => (step_stopped s).2⟩

/-- Settles O50: memory lists no cell, PC is 0, and the default map keeps the layout whichever byte `OPC_ADDI` is. -/
theorem resetMeetsMachineInvariant : Obligations.ResetMeetsMachineInvariant :=
  ⟨Memory.nil_wf, Nat.zero_le _, Params.defaults_wellFormed⟩

/-! ## The ways a step comes to a next state -/

/-- The ways a step from s answers t (R90, R95).  A fetch reads its bytes in the polled state and counts their draws; n is
the count after it. -/
inductive StepCase (s : State) : State → Prop where
  | stays (hrun : s.run = .halted) : StepCase s s
  | enters (i : Fin 8) (hline : activeLine (polled s) = some i) : StepCase s (interruptEntry i (polled s))
  | fetchFaults (kind : FaultKind) (op : Option Byte) (info : FaultInfo) (n : Nat) :
      StepCase s (raise kind op info { polled s with draws := n })
  | executes {t : State} (i : Instr) (n : Nat) (hfetch : fetch (polled s) = .ok (i, { polled s with draws := n }))
      (hpc : (polled s).pc ≤ 0xFF) (hexec : exec i { polled s with draws := n } = .next t) : StepCase s t

/-- Every next state is reached in one of these ways. -/
theorem stepCase_of_step {s t : State} (hstep : step s = .next t) : StepCase s t := by
  cases hrun : s.run with
  | running =>
    rcases step_running_cases s hrun with ⟨i, hline, e⟩ | ⟨-, u, hfetch, e⟩ | ⟨-, i, u, hfetch, e⟩
    · cases e.symm.trans hstep
      exact .enters i hline
    · obtain ⟨kind, op, info, v, rfl, hv, -⟩ := fetch_error hfetch
      cases e.symm.trans hstep
      rw [hv]
      exact .fetchFaults kind op info v.draws
    · obtain ⟨hu, hpc⟩ := fetch_ok hfetch
      rw [hu] at hfetch e
      exact .executes i u.draws hfetch hpc (e.symm.trans hstep)
  | halted =>
    cases ((step_stopped s).1 hrun).symm.trans hstep
    exact .stays hrun
  | faulted r => cases ((step_stopped s).2 r hrun).symm.trans hstep

/-! ## What the polls leave (R206, R207) -/

@[simp] theorem polled_fl (s : State) : (polled s).fl = s.fl := by
  obtain ⟨h, -⟩ := polled_fields s; exact h

@[simp] theorem polled_pc (s : State) : (polled s).pc = s.pc := by
  obtain ⟨-, h, -⟩ := polled_fields s; exact h

@[simp] theorem polled_ie (s : State) : (polled s).ie = s.ie := by
  obtain ⟨-, -, h, -⟩ := polled_fields s; exact h

@[simp] theorem polled_run (s : State) : (polled s).run = s.run := by
  obtain ⟨-, -, -, h, -⟩ := polled_fields s; exact h

@[simp] theorem polled_out (s : State) : (polled s).out = s.out := by
  obtain ⟨-, -, -, -, h, -⟩ := polled_fields s; exact h

@[simp] theorem polled_params (s : State) : (polled s).params = s.params := by
  obtain ⟨-, -, -, -, -, -, h, -⟩ := polled_fields s; exact h

theorem polled_wf {s : State} (h : s.mem.wf) : (polled s).mem.wf := polls_wf (s := s.takeSample) h s.sample

/-! ## What an instruction writes of FL, IE, the output and the run state -/

/-- R27, R110: FL is CMP's to write, and IRET's to pop. -/
theorem Effect.fl {i : Instr} {s t : State} (h : Effect i s t) :
    t.fl = s.fl ∨ i.mnemonic = .cmp ∨ i.mnemonic = .iret := by
  cases h with
  | compares _ hcmp => exact .inr (.inl hcmp)
  | irets hiret => exact .inr (.inr (congrArg Instr.mnemonic hiret))
  | faults | halts => exact .inl rfl
  | advances | writesReg | loads | stores | pushes | pops | emits | jumps | fallsThrough | calls | returns | pends =>
    exact .inl (by simp)

/-- R30: no instruction but IRET writes IE, and IRET does not clear it. -/
theorem Effect.ie {i : Instr} {s t : State} (h : Effect i s t) :
    t.ie = s.ie ∨ i = .iret ∧ t.ie = (s.params.iretSetsIe || s.ie) := by
  cases h with
  | irets hiret =>
    obtain ⟨-, -, -, -, hie, -⟩ := interruptReturn_rest s
    exact .inr ⟨hiret, by simpa using hie⟩
  | faults | halts => exact .inl rfl
  | advances | writesReg | loads | compares | stores | pushes | pops | emits | jumps | fallsThrough | calls | returns
  | pends => exact .inl (by simp)

/-- R32: an instruction leaves the output, or is a PRN or PRA that adds its event at the end. -/
theorem Effect.out {i : Instr} {s t : State} (h : Effect i s t) :
    t.out = s.out ∨ ∃ e : OutEvent, t.out = s.out ++ [e] ∧
      ((i.mnemonic = .prn ∧ e.kind = .num) ∨ (i.mnemonic = .pra ∧ e.kind = .chr)) := by
  cases h with
  | emits k v hkind => exact .inr ⟨⟨k, v⟩, by simp, hkind⟩
  | irets =>
    obtain ⟨-, -, hout, -⟩ := interruptReturn_rest s
    exact .inl (by simpa using hout)
  | faults | halts => exact .inl rfl
  | advances | writesReg | loads | compares | stores | pushes | pops | jumps | fallsThrough | calls | returns | pends =>
    exact .inl (by simp)

/-- R31, R181: a Running block that an instruction leaves Halted has run a HLT. -/
theorem Effect.halted {i : Instr} {s t : State} (h : Effect i s t) (hrun : s.run = .running) (hhalt : t.run = .halted) :
    i = .hlt := by
  cases h with
  | halts hhlt => exact hhlt
  | faults => cases hhalt
  | irets =>
    obtain ⟨-, hsame, -⟩ := interruptReturn_rest s
    simp [hsame, hrun] at hhalt
  | advances | writesReg | loads | compares | stores | pushes | pops | emits | jumps | fallsThrough | calls | returns
  | pends => simp [hrun] at hhalt

/-- A HLT's next state is the one R181 gives. -/
theorem exec_hlt_eq_next {s t : State} : exec .hlt s = .next t ↔ (s.setPc (s.nextPc .hlt)).setRun .halted = t := by
  simp [exec, execHlt]

/-- R211, R218: an entry goes on running or faults. -/
theorem interruptEntry_run_ne_halted {s : State} (hrun : s.run = .running) (i : Fin 8) :
    (interruptEntry i s).run ≠ .halted := by
  rcases interruptEntry_cases s i with ⟨-, u, rfl, e⟩ | ⟨-, e⟩
  · simp [e, hrun]
  · simp [e, raiseOutOfBounds]

/-! ## The invariant -/

/-- An instruction keeps memory canonical: all its writes of memory are stores and pushes of bytes (R53, R60). -/
theorem Effect.mem_wf {i : Instr} {s t : State} (h : Effect i s t) (hwf : s.mem.wf) : t.mem.wf := by
  cases h with
  | stores a v => rw [State.finish_mem]; exact State.store_wf hwf a v
  | pushes v => rw [State.finish_mem]; exact State.pushByte_wf hwf v
  | calls v a => rw [State.finish_mem, State.setPc_mem]; exact State.pushByte_wf hwf v
  | irets =>
    obtain ⟨hmem, -⟩ := interruptReturn_rest s
    rwa [State.finish_mem, hmem]
  | faults | halts => exact hwf
  | advances | writesReg | loads | compares | pops | emits | jumps | fallsThrough | returns | pends => simpa using hwf

/-- R24: past an instruction of at most three bytes that starts in a cell, the address is at most 0x102. -/
theorem State.nextPc_le {s : State} (hw : s.params.WellFormed) (hpc : s.pc ≤ 0xFF) (m : Mnemonic) :
    s.nextPc m ≤ 0x102 := by
  have := m.operands_le
  rw [State.nextPc_eq hw]
  omega

/-- Step 8 keeps R24's bound on PC. -/
theorem State.finish_pc_le {s t : State} (hw : s.params.WellFormed) (hpc : s.pc ≤ 0xFF) (m : Mnemonic)
    (ht : t.pc ≤ 0x102) : (s.finish m t).pc ≤ 0x102 := by
  rw [State.finish_pc]
  split
  · exact ht
  · exact State.nextPc_le hw hpc m

/-- R24: an instruction fetched at PC leaves PC where it was, at a byte, or past the instruction. -/
theorem Effect.pc_le {i : Instr} {s t : State} (h : Effect i s t) (hw : s.params.WellFormed) (hpc : s.pc ≤ 0xFF) :
    t.pc ≤ 0x102 := by
  have hpc' : s.pc ≤ 0x102 := by omega
  have byte_le (a : Byte) : a.toNat ≤ 0x102 := by omega
  have hnext := State.nextPc_le hw hpc
  cases h with
  | faults => exact hpc'
  | halts => exact hnext .hlt
  | jumps a | calls _ a => exact State.finish_pc_le hw hpc _ (byte_le a)
  | fallsThrough => exact State.finish_pc_le hw hpc _ (hnext _)
  | pends line advances =>
    refine State.finish_pc_le hw hpc _ ?_
    cases advances
    · exact hpc'
    · exact hnext _
  | returns => exact State.finish_pc_le hw hpc _ (byte_le s.popValue)
  | irets =>
    obtain ⟨-, -, -, -, -, hbyte⟩ := interruptReturn_rest s
    exact State.finish_pc_le hw hpc _ (by omega)
  | advances | writesReg | loads | compares | stores | pushes | pops | emits =>
    exact State.finish_pc_le hw hpc _ (by simpa using hpc')

/-- Memory stays canonical in every step. -/
theorem step_mem_wf {s t : State} (hwf : s.mem.wf) (hstep : step s = .next t) : t.mem.wf := by
  have hpolled := polled_wf hwf
  cases stepCase_of_step hstep with
  | stays => exact hwf
  | enters i => exact interruptEntry_wf hpolled i
  | fetchFaults => exact hpolled
  | executes i n _ _ hexec => exact (effect_of_exec _ hexec).mem_wf hpolled

/-- R24: PC stays at most 0x102 in every step. -/
theorem step_pc_le {s t : State} (hpc : s.pc ≤ 0x102) (hw : s.params.WellFormed) (hstep : step s = .next t) :
    t.pc ≤ 0x102 := by
  cases stepCase_of_step hstep with
  | stays => exact hpc
  | enters i =>
    obtain ⟨-, -, -, -, hbyte | hsame⟩ := interruptEntry_rest (polled s) i
    · omega
    · rwa [hsame, polled_pc]
  | fetchFaults => exact (polled_pc s).trans_le hpc
  | executes i n _ hcell hexec =>
    exact (effect_of_exec _ hexec).pc_le ((polled_params s).symm ▸ hw) hcell

/-- Settles O51: each of the three parts is kept; the parameters are, since no step changes them. -/
theorem stepKeepsMachineInvariant : Obligations.StepKeepsMachineInvariant := by
  rintro s t ⟨hmem, hpc, hparams⟩ hstep
  exact ⟨step_mem_wf hmem hstep, step_pc_le hpc hparams hstep, (step_params hstep).symm ▸ hparams⟩

/-! ## Who writes FL, IE, the output and the run state -/

/-- Settles O52: of the ways of a step only an execution can change FL, and only that of a CMP or an IRET. -/
theorem onlyCmpAndIretChangeFlags : Obligations.OnlyCmpAndIretChangeFlags := by
  intro s t hstep hfl
  cases stepCase_of_step hstep with
  | stays => exact absurd rfl hfl
  | enters i =>
    obtain ⟨hsame, -⟩ := interruptEntry_rest (polled s) i
    exact absurd (hsame.trans (polled_fl s)) hfl
  | fetchFaults => exact absurd (polled_fl s) hfl
  | executes i n hfetch _ hexec =>
    rcases (effect_of_exec _ hexec).fl with hsame | hwriter
    · exact absurd (hsame.trans (polled_fl s)) hfl
    · exact ⟨i, _, hfetch, hwriter, hexec⟩

/-- What a step does to IE: leaves it, clears it in an entry, or keeps it set or sets it in an IRET (R30, R183, R211). -/
theorem step_ie_cases {s t : State} (hstep : step s = .next t) :
    t.ie = s.ie ∨ (t.ie = false ∧ ∃ i, activeLine (polled s) = some i ∧ t = interruptEntry i (polled s)) ∨
      (t.ie = (s.params.iretSetsIe || s.ie) ∧ ∃ u, fetch (polled s) = .ok (.iret, u)) := by
  cases stepCase_of_step hstep with
  | stays => exact .inl rfl
  | enters i hline =>
    obtain ⟨-, -, -, hcleared, -⟩ := interruptEntry_rest (polled s) i
    exact .inr (.inl ⟨hcleared, i, hline, rfl⟩)
  | fetchFaults => exact .inl (polled_ie s)
  | executes i n hfetch _ hexec =>
    rcases (effect_of_exec _ hexec).ie with hsame | ⟨rfl, hiret⟩
    · exact .inl (hsame.trans (polled_ie s))
    · exact .inr (.inr ⟨by simpa using hiret, _, hfetch⟩)

/-- Settles O53: an entry cannot set IE, and an IRET cannot clear it. -/
theorem latchChangesOnlyByEntryAndIret : Obligations.LatchChangesOnlyByEntryAndIret := by
  refine fun s t hstep => ⟨fun hclear hset => ?_, fun hset hclear => ?_⟩
  · rcases step_ie_cases hstep with hsame | ⟨hcleared, -⟩ | ⟨-, hfetch⟩
    · cases hset.symm.trans (hsame.trans hclear)
    · cases hset.symm.trans hcleared
    · exact hfetch
  · rcases step_ie_cases hstep with hsame | ⟨-, hentry⟩ | ⟨hiret, -⟩
    · cases hclear.symm.trans (hsame.trans hset)
    · exact hentry
    · simp [hiret, hset] at hclear

/-- Settles O54: of the ways of a step only an execution can add to the output, and then its one event. -/
theorem outputGrowsByOneEvent : Obligations.OutputGrowsByOneEvent := by
  refine ⟨rfl, fun s t hstep => ?_⟩
  cases stepCase_of_step hstep with
  | stays => exact .inl rfl
  | enters i =>
    obtain ⟨-, hsame, -⟩ := interruptEntry_rest (polled s) i
    exact .inl (hsame.trans (polled_out s))
  | fetchFaults => exact .inl (polled_out s)
  | executes i n hfetch _ hexec =>
    rcases (effect_of_exec _ hexec).out with hsame | ⟨e, happend, hkind⟩
    · exact .inl (hsame.trans (polled_out s))
    · exact .inr ⟨e, i, _, happend.trans (by simp), hfetch, hexec, hkind⟩

/-- Settles O55: an entry and a fault in the fetch do not halt, and the instruction that does is HLT. -/
theorem haltReachedOnlyByHlt : Obligations.HaltReachedOnlyByHlt := by
  intro s t hrun hstep hhalt
  have hpolled : (polled s).run = .running := (polled_run s).trans hrun
  cases stepCase_of_step hstep with
  | stays => cases hrun.symm.trans hhalt
  | enters i => exact absurd hhalt (interruptEntry_run_ne_halted hpolled i)
  | fetchFaults => cases hhalt
  | executes i n hfetch _ hexec =>
    obtain rfl := (effect_of_exec _ hexec).halted hpolled hhalt
    exact ⟨_, hfetch, (exec_hlt_eq_next.1 hexec).symm⟩

end Sys2Proof.Machine
end

section
/-! PROOF. The memory's statements (spec 20_memory): a read (R52), a push (R60), what the polls store and make pending
(R206, R207), and the bytes a fetch reads (R90 to R92). -/

namespace Sys2Proof.Machine

/-! ## Memory accesses (R52, R54) -/

theorem State.afterRead_draw {s : State} {a : Byte} (h : isScratch a = true) :
    s.afterRead a = { s with draws := s.draws + 1 } := by simp [State.afterRead, h]

/-- Settles O4: above 0xFF, at a draw cell, and at any other cell. -/
theorem memReadAnswersCellOrDraw : Obligations.MemReadAnswersCellOrDraw := by
  intro a s
  rcases memRead_cases s a with ⟨ha, e⟩ | ⟨ha, e⟩
  · rw [e, if_neg (by omega)]
    have hscratch := isScratch_ofNat ha
    split
    next hdraw =>
      have hd : isScratch (BitVec.ofNat 8 a) = true := by simpa [hdraw] using hscratch
      rw [s.peek_draw hd, State.afterRead_draw hd]
    next hcell =>
      have hc : isScratch (BitVec.ofNat 8 a) = false := by simpa [hcell] using hscratch
      rw [s.peek_cell hc, s.afterRead_cell hc, BitVec.toNat_ofNat, Nat.mod_eq_of_lt (by omega)]
  · rw [e, if_pos ha]

/-! ## The stack (R60) -/

/-- Settles O5: a value that fits a cell is pushed as a byte, one that does not is out of bounds. -/
theorem pushWritesBelowOldTop : Obligations.PushWritesBelowOldTop := by
  intro v s
  rcases push_cases s v with ⟨hv, e⟩ | ⟨hv, e⟩
  · refine ⟨fun hv' => by omega, fun _ => ⟨_, e, ?_, ?_, fun a ha => ?_, fun j hj => ?_, rfl, rfl, rfl, rfl,
      rfl, rfl, rfl, rfl, rfl⟩⟩
    · rw [State.pushByte_sp]
      exact toNat_sub_const s.sp (n := 1) (by decide)
    · rw [State.pushByte_sp, State.pushByte_mem, Memory.read_write_self, BitVec.toNat_ofNat]
      omega
    · rw [State.pushByte_sp] at ha
      exact Memory.read_write_ne _ _ ha
    · rw [State.pushByte_reg, if_neg (by simpa using hj)]
  · exact ⟨fun _ => e, fun hv' => by omega⟩

/-! ## The polls (R206, R207) -/

/-- R206: a key is stored at 0xF4; without one memory is left alone. -/
theorem pollKey_read (line : Fin 8) (key : Option Byte) (s : State) (a : Nat) :
    (pollKey line key s).mem.read a = if a = 0xF4 then key.getD (s.mem.read a) else s.mem.read a := by
  cases key with
  | none => simp [pollKey]
  | some k => exact State.store_read s 0xF4 k a

/-- R206: a key makes its line pending. -/
theorem pollKey_bit (line : Fin 8) (key : Option Byte) (s : State) (k : Nat) (hk : k < 8) :
    ((pollKey line key s).reg 6).getLsbD k = ((s.reg 6).getLsbD k || (key.isSome && decide (k = line.val))) := by
  cases key with
  | none => simp [pollKey]
  | some v => exact State.setPending_bit (s.store 0xF4 v) line k hk

/-- R207: a tick makes its line pending. -/
theorem pollTimer_bit (line : Fin 8) (tick : Bool) (s : State) (k : Nat) (hk : k < 8) :
    ((pollTimer line tick s).reg 6).getLsbD k = ((s.reg 6).getLsbD k || (tick && decide (k = line.val))) := by
  cases tick with
  | false => simp [pollTimer]
  | true => exact State.setPending_bit s line k hk

/-- R207: the timer's poll writes no memory. -/
@[simp] theorem pollTimer_mem (line : Fin 8) (tick : Bool) (s : State) : (pollTimer line tick s).mem = s.mem := by
  cases tick <;> rfl

/-- The polls write no register but R6. -/
theorem polls_reg_ne (i : Sample) (s : State) {j : RegIx} (hj : j ≠ 6) : (polls i s).reg j = s.reg j := by
  obtain ⟨key, tick⟩ := i
  cases key <;> cases tick <;> simp [polls, pollKey, pollTimer, hj]

/-- The polls write no field but memory and R6. -/
theorem polls_fields (i : Sample) (s : State) : (polls i s).pc = s.pc ∧ (polls i s).fl = s.fl ∧ (polls i s).out = s.out ∧
    (polls i s).draws = s.draws ∧ SameSystem s (polls i s) := by
  obtain ⟨key, tick⟩ := i
  cases key <;> cases tick <;> exact ⟨rfl, rfl, rfl, rfl, rfl, rfl, rfl, rfl, rfl⟩

/-- Settles O44: the cell and the pending bits by the two polls in turn, the rest by their frame. -/
theorem pollsStoreKeyAndSetPending : Obligations.PollsStoreKeyAndSetPending := by
  refine fun i s => ⟨_, rfl, fun a => ?_, fun k hk => ?_, fun j hj => polls_reg_ne i s (by simpa using hj), polls_fields i s⟩
  · rw [polls, pollTimer_mem, pollKey_read]
  · rw [polls, pollTimer_bit _ _ _ k hk, pollKey_bit _ _ _ k hk, Bool.or_right_comm]

/-! ## Fetch (R90 to R92) -/

@[simp] theorem polled_draws (s : State) : (polled s).draws = s.draws := by
  obtain ⟨-, -, -, -, -, h, -⟩ := polled_fields s; exact h

/-- R90: a Running block takes its sample, polls and goes on from there. -/
theorem step_running {s : State} (h : s.run = .running) : step s = afterPolls (polled s) := by
  simp only [step, advanceMachine, h, cycle, polled]

/-- R209: with no line to take, the cycle runs the instruction at PC. -/
theorem afterPolls_of_no_line {s : State} (h : activeLine s = none) : afterPolls s = runInstruction s := by
  simp only [afterPolls, h]

/-- Settles O12: every byte asked for is in a cell, so the fetch is the one of `fetch_eq` in the polled state. -/
theorem fetchReadsCellsOrDraws : Obligations.FetchReadsCellsOrDraws := by
  intro s hrun hw hline hpc after op
  have hfetch := fetch_eq (polled s) ((polled_params s).symm ▸ hw) (by rw [polled_pc]; omega) fun m _ => by
    have := m.operands_le
    simp only [polled_pc]; omega
  simp only [polled_params, polled_pc, polled_draws] at hfetch
  rw [step_running hrun, afterPolls_of_no_line hline, runInstruction, hfetch]
  cases hd : decodeOpcode s.params (fetchView (polled s) 0) with
  | none => simp [op, raise_eq, after]
  | some m => simp [after]

end Sys2Proof.Machine
end

section
/-! PROOF. What the cells 0xF5 to 0xF7 hold cannot be observed (spec 20_memory R54): each operation of the machine takes
states that differ in nothing else to states that differ in nothing else, and so does every step. -/

namespace Sys2Proof.Machine

/-! ## States that agree off the draw cells -/

/-- R54: a state agrees with itself under any memory that reads alike off the draw cells. -/
theorem agreeOffScratch_setMem {s : State} {n : Memory} (hn : ∀ a, a < 0xF5 ∨ 0xF7 < a → s.mem.read a = n.read a) :
    AgreeOffScratch s { s with mem := n } := ⟨rfl, rfl, rfl, rfl, rfl, rfl, rfl, rfl, rfl, rfl, hn⟩

variable {s t : State}

/-- States that agree differ in memory alone. -/
theorem AgreeOffScratch.exists_setMem (h : AgreeOffScratch s t) :
    ∃ n : Memory, (∀ a, a < 0xF5 ∨ 0xF7 < a → s.mem.read a = n.read a) ∧ t = { s with mem := n } := by
  obtain ⟨h1, h2, h3, h4, h5, h6, h7, h8, h9, h10, hmem⟩ := h
  refine ⟨t.mem, hmem, ?_⟩
  cases s; cases t
  simp_all

/-- What does not look at memory is the same of two states that agree. -/
theorem AgreeOffScratch.congr {α : Type} (h : AgreeOffScratch s t) {f : State → α}
    (hf : ∀ (u : State) (n : Memory), f { u with mem := n } = f u) : f s = f t := by
  obtain ⟨n, -, rfl⟩ := h.exists_setMem
  exact (hf s n).symm

/-- An operation that neither looks at memory nor writes it takes states that agree to states that agree. -/
theorem AgreeOffScratch.map (h : AgreeOffScratch s t) {f : State → State}
    (hf : ∀ (u : State) (n : Memory), f { u with mem := n } = { f u with mem := n }) : AgreeOffScratch (f s) (f t) := by
  obtain ⟨n, hn, rfl⟩ := h.exists_setMem
  have hmem : (f s).mem = s.mem := (congrArg State.mem (hf s s.mem) :)
  rw [hf s n]
  exact agreeOffScratch_setMem (hmem.symm ▸ hn)

theorem AgreeOffScratch.pc (h : AgreeOffScratch s t) : s.pc = t.pc := h.congr fun _ _ => rfl

theorem AgreeOffScratch.run (h : AgreeOffScratch s t) : s.run = t.run := h.congr fun _ _ => rfl

theorem AgreeOffScratch.params (h : AgreeOffScratch s t) : s.params = t.params := h.congr fun _ _ => rfl

theorem AgreeOffScratch.reg (h : AgreeOffScratch s t) (j : RegIx) : s.reg j = t.reg j :=
  h.congr (f := fun u => u.reg j) fun _ _ => rfl

theorem AgreeOffScratch.setReg (h : AgreeOffScratch s t) (j : RegIx) {v w : Byte} (hv : v = w) :
    AgreeOffScratch (s.setReg j v) (t.setReg j w) :=
  hv ▸ h.map (f := fun u => u.setReg j v) fun _ _ => rfl

theorem AgreeOffScratch.setPc (h : AgreeOffScratch s t) {v w : Nat} (hv : v = w) :
    AgreeOffScratch (s.setPc v) (t.setPc w) :=
  hv ▸ h.map (f := fun u => u.setPc v) fun _ _ => rfl

/-- Step 8 in states that agree, after an instruction that left states that agree (R94). -/
theorem AgreeOffScratch.finish (h : AgreeOffScratch s t) (m : Mnemonic) {u w : State} (hu : AgreeOffScratch u w) :
    AgreeOffScratch (s.finish m u) (t.finish m w) := by
  have hop : s.opcode m = t.opcode m := h.congr (f := fun u => u.opcode m) fun _ _ => rfl
  have hnext : s.nextPc m = t.nextPc m := h.congr (f := fun u => u.nextPc m) fun _ _ => rfl
  unfold State.finish
  rw [hop]
  split
  · exact hu
  · exact hu.setPc hnext

/-! ## Memory and the stack (R52 to R54, R60, R61) -/

/-- A read of a draw cell answers the next draw, and a read of any other cell a byte on which the states agree. -/
theorem AgreeOffScratch.peek (h : AgreeOffScratch s t) {a b : Byte} (hab : a = b) : s.peek a = t.peek b := by
  subst hab
  obtain ⟨n, hn, rfl⟩ := h.exists_setMem
  cases ha : isScratch a with
  | true => rw [State.peek_draw _ ha, State.peek_draw _ ha]
  | false =>
    have hcell : ¬ (0xF5 ≤ a.toNat ∧ a.toNat ≤ 0xF7) := by simp [← isScratch_iff, ha]
    exact State.peek_congr a (hn _ (by omega)) rfl

theorem AgreeOffScratch.afterRead (h : AgreeOffScratch s t) {a b : Byte} (hab : a = b) :
    AgreeOffScratch (s.afterRead a) (t.afterRead b) :=
  hab ▸ h.map (f := fun u => u.afterRead a) fun u n => by cases ha : isScratch a <;> simp [State.afterRead, ha]

theorem AgreeOffScratch.store (h : AgreeOffScratch s t) {a b v w : Byte} (hab : a = b) (hv : v = w) :
    AgreeOffScratch (s.store a v) (t.store b w) := by
  subst hab hv
  obtain ⟨n, hn, rfl⟩ := h.exists_setMem
  refine agreeOffScratch_setMem fun c hc => ?_
  rw [State.store_mem, Memory.read_write, Memory.read_write, hn c hc]

theorem AgreeOffScratch.pushByte (h : AgreeOffScratch s t) {v w : Byte} (hv : v = w) :
    AgreeOffScratch (s.pushByte v) (t.pushByte w) :=
  have hsp : s.sp - 1 = t.sp - 1 := congrArg (· - 1) (h.reg 7)
  (h.setReg 7 hsp).store hsp hv

theorem AgreeOffScratch.popValue (h : AgreeOffScratch s t) : s.popValue = t.popValue := h.peek (h.reg 7)

theorem AgreeOffScratch.afterPop (h : AgreeOffScratch s t) : AgreeOffScratch s.afterPop t.afterPop :=
  (h.afterRead (h.reg 7)).setReg 7 (congrArg (· + 1) (h.reg 7))

theorem AgreeOffScratch.popReg (h : AgreeOffScratch s t) (j : RegIx) : AgreeOffScratch (s.popReg j) (t.popReg j) :=
  h.afterPop.setReg j h.popValue

theorem AgreeOffScratch.popPc (h : AgreeOffScratch s t) : AgreeOffScratch s.popPc t.popPc :=
  h.afterPop.setPc (congrArg BitVec.toNat h.popValue)

theorem AgreeOffScratch.popFl (h : AgreeOffScratch s t) : AgreeOffScratch s.popFl t.popFl := by
  unfold State.popFl
  rw [h.popValue]
  exact h.afterPop.map (f := fun u => u.setFl t.popValue) fun _ _ => rfl

/-! ## The polls, the entry and the return (R183, R206, R207, R211) -/

theorem AgreeOffScratch.polled (h : AgreeOffScratch s t) : AgreeOffScratch (polled s) (polled t) := by
  have hsample : s.sample = t.sample := h.congr (f := State.sample) fun _ _ => rfl
  have htake : AgreeOffScratch s.takeSample t.takeSample := h.map (f := State.takeSample) fun _ _ => rfl
  have hpend {u w : State} (hu : AgreeOffScratch u w) (line : Fin 8) :
      AgreeOffScratch (u.setPending line) (w.setPending line) := hu.map (f := fun u => u.setPending line) fun _ _ => rfl
  unfold Machine.polled polls
  rw [hsample, htake.params]
  cases t.sample.key <;> cases t.sample.tick
  · exact htake
  · exact hpend htake _
  · exact hpend (htake.store rfl rfl) _
  · exact hpend (hpend (htake.store rfl rfl) _) _

theorem AgreeOffScratch.pushContext (h : AgreeOffScratch s t) : AgreeOffScratch s.pushContext t.pushContext :=
  List.foldl_rel (h.pushByte (h.congr (f := State.fl) fun _ _ => rfl)) fun j _ _ _ hu => hu.pushByte (hu.reg j)

theorem AgreeOffScratch.interruptEntry (h : AgreeOffScratch s t) (i : Fin 8) :
    AgreeOffScratch (interruptEntry i s) (interruptEntry i t) := by
  have hclear : AgreeOffScratch ((s.setIe false).clearPending i) ((t.setIe false).clearPending i) :=
    h.map (f := fun u => (u.setIe false).clearPending i) fun _ _ => rfl
  have hpc := h.pc
  rcases interruptEntry_cases s i with ⟨hs, u, rfl, e⟩ | ⟨hs, e⟩ <;>
    rcases interruptEntry_cases t i with ⟨ht, w, rfl, e'⟩ | ⟨ht, e'⟩
  · have hpushed := (hclear.pushByte (congrArg (BitVec.ofNat 8) hpc)).pushContext
    rw [e, e']
    exact (hpushed.afterRead rfl).setPc (congrArg BitVec.toNat (hpushed.peek rfl))
  · omega
  · omega
  · rw [e, e', hpc]
    exact hclear.map (f := raiseOutOfBounds none t.pc) fun _ _ => rfl

theorem AgreeOffScratch.interruptReturn (h : AgreeOffScratch s t) :
    AgreeOffScratch (interruptReturn s) (interruptReturn t) := by
  have hpops := (List.foldl_rel (l := ([6, 5, 4, 3, 2, 1, 0] : List RegIx)) h fun j _ _ _ hu => hu.popReg j).popFl.popPc
  unfold Machine.interruptReturn
  rw [h.params]
  dsimp only
  split
  · exact hpops.map (f := fun u => u.setIe true) fun _ _ => rfl
  · exact hpops

/-! ## Instructions -/

/-- An instruction goes on alike after a register operand, if it does so for every register, and faults alike (R86). -/
theorem AgreeOffScratch.withReg (h : AgreeOffScratch s t) {m : Mnemonic} {a : Byte} {k k' : RegIx → Outcome}
    (hk : ∀ r, OutcomesAgree (k r) (k' r)) : OutcomesAgree (withReg m a s k) (withReg m a t k') := by
  unfold Machine.withReg
  cases index8 a with
  | some r => exact hk r
  | none => exact h.map (f := fun u => raiseOutOfBounds (some (u.opcode m)) a.toNat u) fun _ _ => rfl

theorem AgreeOffScratch.withRegs (h : AgreeOffScratch s t) {m : Mnemonic} {a b : Byte} {k k' : RegIx → RegIx → Outcome}
    (hk : ∀ r q, OutcomesAgree (k r q) (k' r q)) : OutcomesAgree (withRegs m a b s k) (withRegs m a b t k') :=
  h.withReg fun r => h.withReg fun q => hk r q

theorem AgreeOffScratch.aluBinary (h : AgreeOffScratch s t) (m : Mnemonic) (f : Byte → Byte → Byte) (a b : Byte) :
    OutcomesAgree (aluBinary m f a b s) (aluBinary m f a b t) :=
  h.withRegs fun r q => h.finish m (h.setReg r (congrArg₂ f (h.reg r) (h.reg q)))

theorem AgreeOffScratch.aluUnary (h : AgreeOffScratch s t) (m : Mnemonic) (f : Byte → Byte) (a : Byte) :
    OutcomesAgree (aluUnary m f a s) (aluUnary m f a t) :=
  h.withReg fun r => h.finish m (h.setReg r (congrArg f (h.reg r)))

theorem AgreeOffScratch.aluDivide (h : AgreeOffScratch s t) (m : Mnemonic) (f : Byte → Byte → Byte) (a b : Byte) :
    OutcomesAgree (aluDivide m f a b s) (aluDivide m f a b t) :=
  h.withRegs fun r q => by
    rw [h.reg q]
    split
    · exact h.map (f := fun u => raise .divisionByZero (some (u.opcode m)) (.operands a b) u) fun _ _ => rfl
    · exact h.finish m (h.setReg r (congrArg (f · _) (h.reg r)))

theorem AgreeOffScratch.jumpIf (h : AgreeOffScratch s t) (m : Mnemonic) (cond : Byte → Bool) (a : Byte) :
    OutcomesAgree (jumpIf m cond a s) (jumpIf m cond a t) :=
  h.withReg fun r => h.finish m <|
    h.map (f := fun u => u.setPc (if cond u.fl then (u.reg r).toNat else u.nextPc m)) fun _ _ => rfl

theorem AgreeOffScratch.execCall (h : AgreeOffScratch s t) (a : Byte) : OutcomesAgree (execCall a s) (execCall a t) :=
  h.withReg fun r => by
    have hret : s.pc + 2 = t.pc + 2 := congrArg (· + 2) h.pc
    rw [hret]
    rcases push_cases s (t.pc + 2) with ⟨hs, e⟩ | ⟨hs, e⟩ <;> rcases push_cases t (t.pc + 2) with ⟨ht, e'⟩ | ⟨ht, e'⟩
    · rw [e, e']
      exact h.finish .call ((h.pushByte rfl).setPc (congrArg BitVec.toNat (h.reg r)))
    · omega
    · omega
    · rw [e, e']
      exact h.map (f := fun u => raiseOutOfBounds (some (u.opcode .call)) (t.pc + 2) u) fun _ _ => rfl

theorem AgreeOffScratch.execInt (h : AgreeOffScratch s t) (a : Byte) : OutcomesAgree (execInt a s) (execInt a t) :=
  h.withReg fun r => by
    rw [h.reg r]
    cases index8 (t.reg r) with
    | none => exact h.map (f := fun u => raiseOutOfBounds (some (u.opcode .int)) (t.reg r).toNat u) fun _ _ => rfl
    | some line =>
      exact h.finish .int <| h.map (fun _ _ => rfl)
        (f := fun u => (u.setPending line).setPc (if u.params.intAdvancesPc then u.nextPc .int else u.pc))

/-- Every instruction takes states that agree to outcomes that agree. -/
theorem AgreeOffScratch.exec (h : AgreeOffScratch s t) (i : Instr) : OutcomesAgree (exec i s) (exec i t) := by
  cases i with
  | nop => exact h.finish .nop h
  | hlt => exact h.map (f := fun u => (u.setPc (u.nextPc .hlt)).setRun .halted) fun _ _ => rfl
  | ret => exact h.finish .ret h.popPc
  | iret => exact h.finish .iret h.interruptReturn
  | push a => exact h.withReg fun r => h.finish .push (h.pushByte (h.reg r))
  | pop a => exact h.withReg fun r => h.finish .pop (h.popReg r)
  | prn a => exact h.withReg fun r => h.finish .prn (h.map (f := fun u => u.emit .num (u.reg r)) fun _ _ => rfl)
  | pra a => exact h.withReg fun r => h.finish .pra (h.map (f := fun u => u.emit .chr (u.reg r)) fun _ _ => rfl)
  | call a => exact h.execCall a
  | int a => exact h.execInt a
  | jmp a => exact h.jumpIf .jmp (fun _ => true) a
  | jeq a => exact h.jumpIf .jeq condEq a
  | jne a => exact h.jumpIf .jne condNe a
  | jgt a => exact h.jumpIf .jgt condGt a
  | jlt a => exact h.jumpIf .jlt condLt a
  | jle a => exact h.jumpIf .jle condLe a
  | jge a => exact h.jumpIf .jge condGe a
  | inc a => exact h.aluUnary .inc (fun x => x + 1) a
  | dec a => exact h.aluUnary .dec (fun x => x - 1) a
  | not a => exact h.aluUnary .not _ a
  | ldi a imm => exact h.withReg fun r => h.finish .ldi (h.setReg r rfl)
  | ld a b => exact h.withRegs fun r q => h.finish .ld ((h.afterRead (h.reg q)).setReg r (h.peek (h.reg q)))
  | st a b => exact h.withRegs fun r q => h.finish .st (h.store (h.reg r) (h.reg q))
  | add a b => exact h.aluBinary .add _ a b
  | sub a b => exact h.aluBinary .sub _ a b
  | mul a b => exact h.aluBinary .mul _ a b
  | div a b => exact h.aluDivide .div _ a b
  | mod a b => exact h.aluDivide .mod _ a b
  | cmp a b =>
    exact h.withRegs fun r q => h.finish .cmp <|
      h.map (f := fun u => u.setFl (compareFlags (u.reg r) (u.reg q))) fun _ _ => rfl
  | and a b => exact h.aluBinary .and _ a b
  | or a b => exact h.aluBinary .or _ a b
  | xor a b => exact h.aluBinary .xor _ a b
  | shl a b => exact h.aluBinary .shl (fun x y => x <<< y.toNat) a b
  | shr a b => exact h.aluBinary .shr (fun x y => x >>> y.toNat) a b
  | addi a imm => exact h.aluUnary .addi (fun x => x + imm) a

/-! ## Fetch and the cycle (R90 to R92) -/

/-- Two reads alike: the same byte and states that agree, or the same address out of bounds. -/
def ReadsAgree (p q : Except Nat (Byte × State)) : Prop :=
  (∃ v, p = .error v ∧ q = .error v) ∨ ∃ x u w, p = .ok (x, u) ∧ q = .ok (x, w) ∧ AgreeOffScratch u w

theorem AgreeOffScratch.memRead (h : AgreeOffScratch s t) {a b : Nat} (hab : a = b) :
    ReadsAgree (memRead a s) (memRead b t) := by
  subst hab
  unfold Machine.memRead
  split
  · exact .inl ⟨_, rfl, rfl⟩
  · exact .inr ⟨_, _, _, rfl, by rw [h.peek rfl], h.afterRead rfl⟩

theorem AgreeOffScratch.fetchOperand (h : AgreeOffScratch s t) (wanted : Bool) (j : Nat) :
    ReadsAgree (fetchOperand wanted j s) (fetchOperand wanted j t) := by
  cases wanted with
  | false => exact .inr ⟨_, _, _, rfl, rfl, h⟩
  | true => exact h.memRead (congrArg (· + j) h.pc)

/-- The instruction fetched and run, or the fault in its fetch: the bytes are read one after the other, each alike. -/
theorem AgreeOffScratch.runInstruction (h : AgreeOffScratch s t) :
    OutcomesAgree (runInstruction s) (runInstruction t) := by
  unfold Machine.runInstruction fetch fetchOperands
  rcases h.memRead h.pc with ⟨v, e, e'⟩ | ⟨op, u, w, e, e', hu⟩ <;> simp only [e, e', h.params]
  · exact h.map (f := raiseOutOfBounds none v) fun _ _ => rfl
  cases decodeOpcode t.params op with
  | none => exact hu.map (f := raise .illegalInstruction (some op) (.opcodeByte op)) fun _ _ => rfl
  | some m =>
    have hfault (v : Nat) : AgreeOffScratch (raiseOutOfBounds (some op) v u) (raiseOutOfBounds (some op) v w) :=
      hu.map (f := raiseOutOfBounds (some op) v) fun _ _ => rfl
    dsimp only
    rcases hu.fetchOperand (decide (1 ≤ operandCount op)) 1 with ⟨v, e, e'⟩ | ⟨a, u1, w1, e, e', h1⟩ <;> simp only [e, e']
    · exact hfault v
    rcases h1.fetchOperand (decide (operandCount op = 2)) 2 with ⟨v, e, e'⟩ | ⟨b, u2, w2, e, e', h2⟩ <;> simp only [e, e']
    · exact hfault v
    cases unsupported m op with
    | true => exact h2.map (f := raise .unsupportedOperation (some op) (.opcodeByte op)) fun _ _ => rfl
    | false => exact h2.exec (m.assemble a b)

theorem AgreeOffScratch.afterPolls (h : AgreeOffScratch s t) : OutcomesAgree (afterPolls s) (afterPolls t) := by
  have hline : activeLine s = activeLine t := h.congr (f := activeLine) fun _ _ => rfl
  unfold Machine.afterPolls
  rw [hline]
  cases activeLine t with
  | some i => exact h.interruptEntry i
  | none => exact h.runInstruction

/-- Settles O56: a cycle of a Running block is its polls and what follows them; the others stay or surface the record. -/
theorem drawCellContentsUnobservable : Obligations.DrawCellContentsUnobservable := by
  intro s t h
  have hrun := h.run
  cases e : s.run with
  | running =>
    rw [step_running e, step_running (hrun.symm.trans e)]
    exact h.polled.afterPolls
  | halted =>
    rw [(step_stopped s).1 e, (step_stopped t).1 (hrun.symm.trans e)]
    exact h
  | faulted r =>
    rw [(step_stopped s).2 r e, (step_stopped t).2 r (hrun.symm.trans e)]
    exact rfl

end Sys2Proof.Machine
end

section
/-! PROOF. The encoding's statements (spec 30_encoding): what bytes decode to and which opcode bytes are illegal (R80 to
R84, R87), register operands that name no register (R86), the PC an instruction leaves (R94), and what a step fetches and
runs (R88 to R92). -/

namespace Sys2Proof

/-! ## Bytes that decode (R80, R87) -/

@[simp] theorem Mnemonic.mnemonic_assemble (m : Mnemonic) (a b : Byte) : (m.assemble a b).mnemonic = m := by
  cases m <;> rfl

/-- An instruction has the operand bytes that R83 gives its mnemonic. -/
theorem Instr.length_operandBytes (i : Instr) : i.operandBytes.length = i.mnemonic.operands := by
  cases i <;> rfl

/-- The operand bytes that a mnemonic takes are those of the instruction it makes of them (R80, R83). -/
theorem eq_operandBytes_of_takeOperands {m : Mnemonic} {a b : Byte} {bytes rest : List Byte}
    (h : takeOperands m.operands bytes = .ok (a, b, rest)) : bytes = (m.assemble a b).operandBytes ++ rest := by
  have none_taken : takeOperands 0 bytes = .ok (a, b, rest) → bytes = rest := by
    simp +contextual [takeOperands]
  have one_taken : takeOperands 1 bytes = .ok (a, b, rest) → bytes = [a] ++ rest := by
    rcases bytes with _ | ⟨x, bytes⟩ <;> simp +contextual [takeOperands]
  have two_taken : takeOperands 2 bytes = .ok (a, b, rest) → bytes = [a, b] ++ rest := by
    rcases bytes with _ | ⟨x, _ | ⟨y, bytes⟩⟩ <;> simp +contextual [takeOperands]
  cases m with
  | nop | hlt | ret | iret => exact none_taken h
  | push | pop | prn | pra | call | int | jmp | jeq | jne | jgt | jlt | jle | jge | inc | dec | not => exact one_taken h
  | ldi | ld | st | add | sub | mul | div | mod | cmp | and | or | xor | shl | shr | addi => exact two_taken h

/-- Bytes decode where the first is the byte of a mnemonic and the bytes it counts are there (R87, R91). -/
theorem decode_cons_eq_ok {p : Params} {op : Byte} {bytes rest : List Byte} {i : Instr} :
    decode p (op :: bytes) = .ok (i, rest) ↔ ∃ m a b, decodeOpcode p op = some m ∧
      takeOperands (operandCount op) bytes = .ok (a, b, rest) ∧ m.assemble a b = i := by
  cases hd : decodeOpcode p op with
  | none => simp [decode, hd]
  | some m =>
    rcases ht : takeOperands (operandCount op) bytes with e | ⟨a, b, rest'⟩
    · simp [decode, hd, ht]
    · simp only [decode, hd, ht, Except.ok.injEq, Prod.mk.injEq, Option.some.injEq]
      constructor
      · rintro ⟨rfl, rfl⟩
        exact ⟨m, a, b, rfl, ⟨rfl, rfl, rfl⟩, rfl⟩
      · rintro ⟨_, _, _, rfl, ⟨rfl, rfl, rfl⟩, rfl⟩
        exact ⟨rfl, rfl⟩

/-- Settles O7: the first byte is the mnemonic's, and the bytes taken after it are the instruction's operand bytes. -/
theorem decodedBytesAreItsEncoding : Obligations.DecodedBytesAreItsEncoding := by
  intro p bytes rest i hp h
  cases bytes with
  | nil => cases h
  | cons op bytes =>
    obtain ⟨m, a, b, hd, htake, rfl⟩ := decode_cons_eq_ok.1 h
    have hop := opcode_of_decodeOpcode hd
    rw [← hop, hp.operandCount_opcode] at htake
    rw [encode, Mnemonic.mnemonic_assemble, hop, List.cons_append, ← eq_operandBytes_of_takeOperands htake]

/-! ## The bits of an opcode byte (R81, R83, R84) -/

/-- The mnemonics of R83's sets-PC column. -/
theorem Mnemonic.setsPc_iff (m : Mnemonic) : m.setsPc = true ↔
    m ∈ [.ret, .iret, .call, .int, .jmp, .jeq, .jne, .jgt, .jlt, .jle, .jge] := by
  cases m <;> decide

/-- Settles O8: the default map keeps the layout of R83, whose columns describe the instruction. -/
theorem opcodeBitsDescribeInstruction : Obligations.OpcodeBitsDescribeInstruction := by
  intro i p
  have hp : p.WellFormed := Params.defaults_wellFormed
  refine ⟨?_, hp.aluBit_opcode, ?_⟩
  · rw [hp.operandCount_opcode, i.length_operandBytes]
  · rw [hp.setsPcBit_opcode, Mnemonic.setsPc_iff]

/-! ## Illegal opcode bytes (R87) -/

/-- The legal bytes are those of the 35 mnemonics. -/
theorem Params.WellFormed.decodeOpcode_isSome {p : Params} (h : p.WellFormed) (op : Byte) :
    (decodeOpcode p op).isSome = true ↔ op ∈ mnemonics.map p.opcode := by
  rw [Option.isSome_iff_exists, List.mem_map]
  constructor
  · rintro ⟨m, hm⟩
    exact ⟨m, mem_mnemonics m, opcode_of_decodeOpcode hm⟩
  · rintro ⟨m, -, rfl⟩
    exact ⟨m, h.decodeOpcode_opcode m⟩

/-- A list of the legal bytes, each once, is a rearrangement of the 35 bytes of the map. -/
theorem Params.WellFormed.legalBytes_perm {p : Params} (h : p.WellFormed) :
    ((List.range 256).filter fun n => (decodeOpcode p (BitVec.ofNat 8 n)).isSome).Perm
      ((mnemonics.map p.opcode).map BitVec.toNat) := by
  refine (List.perm_ext_iff_of_nodup (List.nodup_range.filter _)
    (h.2.map fun _ _ => BitVec.eq_of_toNat_eq)).2 fun n => ?_
  rw [List.mem_filter, List.mem_range, h.decodeOpcode_isSome, List.mem_map (f := BitVec.toNat)]
  constructor
  · rintro ⟨hn, hmem⟩
    exact ⟨_, hmem, by rw [BitVec.toNat_ofNat, Nat.mod_eq_of_lt hn]⟩
  · rintro ⟨op, hop, rfl⟩
    exact ⟨op.isLt, by rwa [BitVec.ofNat_toNat, BitVec.setWidth_eq]⟩

/-- Under every map that keeps the layout 35 of the 256 bytes are legal, so 221 are not. -/
theorem Params.WellFormed.illegalBytes_length {p : Params} (h : p.WellFormed) :
    ((List.range 256).filter fun n => (decodeOpcode p (BitVec.ofNat 8 n)).isNone).length = 221 := by
  have hlegal := h.legalBytes_perm.length_eq
  have hsplit := List.length_eq_length_filter_add (l := List.range 256)
    fun n => (decodeOpcode p (BitVec.ofNat 8 n)).isSome
  have h35 : mnemonics.length = 35 := rfl
  simp only [List.length_map, List.length_range, Option.not_isSome] at hlegal hsplit
  omega

/-- Bits 7:6 of a byte from 0xC0 up are 0b11. -/
theorem operandCount_eq_three {op : Byte} (h : 0xC0 ≤ op.toNat) : operandCount op = 3 := by
  have := op.isLt
  rw [operandCount, BitVec.extractLsb'_toNat, Nat.shiftRight_eq_div_pow]
  omega

/-- Settles O9: the count holds of every map that keeps the layout; bits 7:6 equal to 0b11 are refused under any. -/
theorem illegalOpcodeBytesCounted : Obligations.IllegalOpcodeBytesCounted :=
  ⟨Params.defaults_wellFormed.illegalBytes_length, fun p op h => by rw [decodeOpcode, if_pos (operandCount_eq_three h)]⟩

/-- Settles O10: each legal word is an instruction's encoding under the default map; the byte 0x02 is in no row. -/
theorem tableWordsDecode : Obligations.TableWordsDecode := by
  unfold Obligations.TableWordsDecode
  intro p
  have decodes (i : Instr) : decode p (encode p i) = .ok (i, []) := by
    simpa using decodeOfEncodeIsIdentity p i [] Params.defaults_wellFormed
  exact ⟨decodes (.add 0 1), decodes (.ldi 3 0xFF), decodes (.push 7), decodes (.jge 2), decodes .iret,
    decodes (.addi 0 0x20), rfl⟩

end Sys2Proof

namespace Sys2Proof.Machine

/-! ## Instructions: faults of their register operands, and the PC they leave (R86, R94) -/

/-- A register operand byte that names no register raises OutOfBounds with it (R86). -/
theorem withReg_badOperand {a r : Byte} (h : [a].find? (fun r => decide (7 < r.toNat)) = some r) (m : Mnemonic) (s : State)
    (k : RegIx → Outcome) :
    withReg m a s k = .next (s.setRun (.faulted ⟨.outOfBounds, s.pc, some (s.params.opcode m), .value r.toNat⟩)) := by
  obtain ⟨ha, rfl⟩ : 7 < a.toNat ∧ a = r := by simpa using h
  rcases withReg_cases s m a k with ⟨q, hq, -⟩ | ⟨-, e⟩
  · omega
  · rw [e, raiseOutOfBounds_eq]; rfl

/-- Of two register operand bytes, the first that names no register raises OutOfBounds with it (R86, R204). -/
theorem withRegs_badOperand {a b r : Byte} (h : [a, b].find? (fun r => decide (7 < r.toNat)) = some r) (m : Mnemonic)
    (s : State) (k : RegIx → RegIx → Outcome) :
    withRegs m a b s k = .next (s.setRun (.faulted ⟨.outOfBounds, s.pc, some (s.params.opcode m), .value r.toNat⟩)) := by
  by_cases ha : 7 < a.toNat
  · exact withReg_badOperand (by simpa [ha] using h) m s _
  · have hb : [b].find? (fun r => decide (7 < r.toNat)) = some r := by simpa [ha] using h
    rcases withReg_cases s m a (fun ra => withReg m b s fun rb => k ra rb) with ⟨q, -, e⟩ | ⟨ha', -⟩
    · exact e.trans (withReg_badOperand hb m s _)
    · omega

/-- Settles O40: every instruction judges its register operands first, one or two of them, a before b. -/
theorem registerOperandOutOfRangeFaults : Obligations.RegisterOperandOutOfRangeFaults := by
  intro i r s h
  cases i with
  | nop | hlt | ret | iret => cases h
  | push | pop | prn | pra | call | int | jmp | jeq | jne | jgt | jlt | jle | jge | inc | dec | not | ldi | addi =>
    exact withReg_badOperand h _ s _
  | ld | st | add | sub | mul | div | mod | cmp | and | or | xor | shl | shr => exact withRegs_badOperand h _ s _

/-- Step 8 with the sets-PC bit 0: PC is the next-sequential address (R94). -/
theorem State.finish_pc_of_bit_clear {s : State} {m : Mnemonic} (h : setsPcBit (s.opcode m) = false) (t : State) :
    (s.finish m t).pc = s.nextPc m := by
  rw [State.finish_pc, h]; rfl

/-- R94: an instruction that does not fault and whose sets-PC bit is 0 leaves PC at the next-sequential address. -/
theorem Effect.pc_eq_nextPc {i : Instr} {s t : State} (h : Effect i s t) (ht : NoFault t)
    (hbit : setsPcBit (s.opcode i.mnemonic) = false) : t.pc = s.nextPc i.mnemonic := by
  cases h with
  | faults kind info => exact absurd rfl (ht ⟨kind, s.pc, some (s.opcode i.mnemonic), info⟩)
  | halts hhlt => rw [hhlt]; rfl
  | advances | writesReg | loads | compares | stores | pushes | pops | emits | jumps | fallsThrough | calls | returns
  | pends | irets => exact State.finish_pc_of_bit_clear hbit _

/-- Settles O14, by the shapes of an execution. -/
theorem pcAdvancesUnlessInstructionSetsIt : Obligations.PcAdvancesUnlessInstructionSetsIt :=
  fun _ s _ hexec ht hbit => (effect_of_exec s hexec).pc_eq_nextPc ht hbit

/-! ## Fetching from cells (R90 to R92) -/

/-- R52: a read of a cell that is no draw cell answers it and changes nothing. -/
theorem memRead_cell (s : State) {a : Nat} (ha : a ≤ 0xFF) (hcell : a < 0xF5 ∨ 0xF7 < a) :
    memRead a s = .ok (s.mem.read a, s) := by
  rw [memReadAnswersCellOrDraw, if_neg (by omega), if_neg (by omega)]

/-- R52: no byte is read past memory. -/
theorem memRead_pastMemory (s : State) {a : Nat} (ha : 0xFF < a) : memRead a s = .error a := by
  rw [memReadAnswersCellOrDraw, if_pos ha]

theorem NoScratch.head {a n : Nat} (h : NoScratch a (1 + n)) : a < 0xF5 ∨ 0xF7 < a := h 0 (by omega)

theorem NoScratch.tail {a n : Nat} (h : NoScratch a (1 + n)) : NoScratch (a + 1) n := fun j hj => by
  have := h (1 + j) (by omega)
  omega

/-- The bytes from a cell on are its byte and the bytes from the next address on. -/
theorem bytesFrom_eq_cons (s : State) {a : Nat} (ha : a ≤ 0xFF) :
    bytesFrom s a = s.mem.read a :: bytesFrom s (a + 1) := by
  have hlen : 0x100 - a = (0x100 - (a + 1)) + 1 := by omega
  unfold bytesFrom
  rw [hlen, List.range_succ_eq_map, List.map_cons, List.map_map]
  simp [Function.comp_def, Nat.add_assoc, Nat.add_comm 1]

theorem length_bytesFrom (s : State) (a : Nat) : (bytesFrom s a).length = 0x100 - a := by simp [bytesFrom]

/-- R92: where the operand bytes are cells and none is a draw cell, the fetch reads them as the decoder takes them, and
changes nothing. -/
theorem fetchOperands_cells (s : State) {n : Nat} (hn : n ≤ 2) (hpc : s.pc + n ≤ 0xFF) (hcells : NoScratch (s.pc + 1) n) :
    ∃ a b, takeOperands n (bytesFrom s (s.pc + 1)) = .ok (a, b, bytesFrom s (s.pc + 1 + n)) ∧
      fetchOperands n s = .ok (a, b, s) := by
  have hread (j : Nat) (hj : j < n) : memRead (s.pc + 1 + j) s = .ok (s.mem.read (s.pc + 1 + j), s) :=
    memRead_cell s (by omega) (hcells j hj)
  have hcons (j : Nat) (hj : j < n) := bytesFrom_eq_cons s (a := s.pc + 1 + j) (by omega)
  obtain rfl | rfl | rfl : n = 0 ∨ n = 1 ∨ n = 2 := by omega
  · exact ⟨_, _, rfl, rfl⟩
  · have r1 := hread 0 (by omega)
    have c1 := hcons 0 (by omega)
    simp only [Nat.add_zero] at r1 c1
    rw [c1]
    exact ⟨_, _, rfl, by simp [fetchOperands, fetchOperand, r1]⟩
  · have r1 := hread 0 (by omega)
    have r2 := hread 1 (by omega)
    have c1 := hcons 0 (by omega)
    have c2 := hcons 1 (by omega)
    simp only [Nat.add_zero] at r1 c1
    rw [c1, c2]
    exact ⟨_, _, rfl, by simp [fetchOperands, fetchOperand, r1, r2]⟩

/-- R92: where an operand byte lies past memory, the first such address, 0x100, is out of bounds. -/
theorem fetchOperands_pastMemory (s : State) {n : Nat} (hn : n ≤ 2) (hpc : s.pc ≤ 0xFF) (hpast : 0xFF < s.pc + n) :
    fetchOperands n s = .error 0x100 := by
  have hbyte1 : decide (1 ≤ n) = true := decide_eq_true (by omega)
  by_cases h : s.pc = 0xFF
  · have r1 : memRead (s.pc + 1) s = .error 0x100 := by rw [h]; exact memRead_pastMemory s (by decide)
    simp only [fetchOperands, fetchOperand, hbyte1, if_true, r1]
  · obtain ⟨hpc', rfl⟩ : s.pc = 0xFE ∧ n = 2 := by omega
    have r1 : memRead (s.pc + 1) s = .ok (s.mem.read (s.pc + 1), s) := memRead_cell s (by omega) (by omega)
    have r2 : memRead (s.pc + 2) s = .error 0x100 := by rw [hpc']; exact memRead_pastMemory s (by decide)
    simp only [fetchOperands, fetchOperand, hbyte1, if_true, r1, decide_true, r2]

/-- R91: an opcode fetch past memory. -/
theorem fetch_pastMemory {s : State} (hpc : 0xFF < s.pc) :
    fetch s = .error (s.setRun (.faulted ⟨.outOfBounds, s.pc, none, .value s.pc⟩)) := by
  simp only [fetch, memRead_pastMemory s hpc, raiseOutOfBounds_eq]

section

variable {s : State} (hpc : s.pc ≤ 0xFF) (hcell : s.pc < 0xF5 ∨ 0xF7 < s.pc)

include hpc hcell

/-- R91: an illegal opcode byte. -/
theorem fetch_illegal (hd : decodeOpcode s.params (s.mem.read s.pc) = none) :
    fetch s = .error (s.setRun (.faulted
      ⟨.illegalInstruction, s.pc, some (s.mem.read s.pc), .opcodeByte (s.mem.read s.pc)⟩)) := by
  simp only [fetch, memRead_cell s hpc hcell, hd, raise_eq]

/-- R92: a legal opcode byte whose operand bytes run past memory. -/
theorem fetch_operandPastMemory {m : Mnemonic} (hd : decodeOpcode s.params (s.mem.read s.pc) = some m)
    (hpast : 0xFF < s.pc + operandCount (s.mem.read s.pc)) :
    fetch s = .error (s.setRun (.faulted ⟨.outOfBounds, s.pc, some (s.mem.read s.pc), .value 0x100⟩)) := by
  have hops := fetchOperands_pastMemory s (operandCount_of_decodeOpcode hd) hpc hpast
  simp only [fetch, memRead_cell s hpc hcell, hd, hops, raiseOutOfBounds_eq]

end

/-- R88, R91, R92: an instruction whose bytes are cells, none a draw cell.  Its operand bytes are those the decoder takes,
nothing changes, and what is left is the ALU's refusal. -/
theorem fetch_cells {s : State} {m : Mnemonic} (hpc : s.pc + operandCount (s.mem.read s.pc) ≤ 0xFF)
    (hcells : NoScratch s.pc (1 + operandCount (s.mem.read s.pc)))
    (hd : decodeOpcode s.params (s.mem.read s.pc) = some m) :
    ∃ a b, takeOperands (operandCount (s.mem.read s.pc)) (bytesFrom s (s.pc + 1)) =
        .ok (a, b, bytesFrom s (s.pc + 1 + operandCount (s.mem.read s.pc))) ∧
      fetch s = if unsupported m (s.mem.read s.pc) then
          .error (s.setRun (.faulted
            ⟨.unsupportedOperation, s.pc, some (s.mem.read s.pc), .opcodeByte (s.mem.read s.pc)⟩))
        else .ok (m.assemble a b, s) := by
  obtain ⟨a, b, htake, hops⟩ := fetchOperands_cells s (operandCount_of_decodeOpcode hd) hpc hcells.tail
  refine ⟨a, b, htake, ?_⟩
  simp only [fetch, memRead_cell s (by omega) hcells.head, hd, hops, raise_eq]

/-- An instruction whose bytes from PC up decode, none of them a draw cell, is the one fetched (R90 to R92). -/
theorem fetch_of_decode {s : State} {i : Instr} {rest : List Byte} (hw : s.params.WellFormed)
    (hdecode : decode s.params (bytesFrom s s.pc) = .ok (i, rest))
    (hcells : NoScratch s.pc (encode s.params i).length) : fetch s = .ok (i, s) := by
  have hbytes := congrArg List.length (decodedBytesAreItsEncoding _ _ _ _ hw hdecode)
  rw [length_bytesFrom, List.length_append, encode, List.length_cons] at hbytes
  rw [bytesFrom_eq_cons s (by omega)] at hdecode
  obtain ⟨m, a, b, hd, htake, rfl⟩ := decode_cons_eq_ok.1 hdecode
  have hop := opcode_of_decodeOpcode hd
  have hn : ((m.assemble a b).operandBytes).length = operandCount (s.mem.read s.pc) := by
    rw [Instr.length_operandBytes, Mnemonic.mnemonic_assemble, ← hop, hw.operandCount_opcode]
  rw [encode, List.length_cons, hn, Nat.add_comm] at hcells
  obtain ⟨a', b', htake', hfetch⟩ := fetch_cells (by omega) hcells hd
  cases htake.symm.trans htake'
  have hperforms : unsupported m (s.mem.read s.pc) = false := hop ▸ unsupported_opcode hw m
  rw [hfetch, hperforms]
  rfl

/-! ## Steps (R90) -/

/-- R90: with no line to take, a step is the fetch and what follows it, in the polled state. -/
theorem step_of_no_line {s : State} (hrun : s.run = .running) (hline : activeLine (polled s) = none) :
    step s = runInstruction (polled s) := by
  rw [step_running hrun, afterPolls_of_no_line hline]

theorem runInstruction_of_fetch_error {s t : State} (h : fetch s = .error t) : runInstruction s = .next t := by
  simp only [runInstruction, h]

theorem runInstruction_of_fetch_ok {s t : State} {i : Instr} (h : fetch s = .ok (i, t)) : runInstruction s = exec i t := by
  simp only [runInstruction, h]

/-- Settles O13: the three ways a fetch faults, in the polled state. -/
theorem fetchFaults : Obligations.FetchFaults := by
  intro s hrun hline
  have fault {r : FaultRecord} (h : fetch (polled s) = .error ((polled s).setRun (.faulted r))) :
      step s = .next ((polled s).setRun (.faulted r)) :=
    (step_of_no_line hrun hline).trans (runInstruction_of_fetch_error h)
  rw [← polled_pc s, ← polled_params s]
  refine ⟨fun hpc => fault (fetch_pastMemory hpc), ?_⟩
  rintro op hpc hcells rfl
  have hcell := hcells.head (n := 0)
  refine ⟨fun hd => fault (fetch_illegal hpc hcell hd), fun hd hpast => ?_⟩
  obtain ⟨m, hm⟩ := Option.ne_none_iff_exists'.1 hd
  exact fault (fetch_operandPastMemory hpc hcell hm hpast)

/-- Settles O57: every byte fetched is a cell's, and the ALU refuses the mnemonic. -/
theorem unsupportedOperationRaisedOffLayout : Obligations.UnsupportedOperationRaisedOffLayout := by
  intro s m hrun hline
  rw [← polled_pc s, ← polled_params s]
  intro op hcells hpc hd halu hperforms hhlt
  have hunsupported : unsupported m op = true := by simp [unsupported, halu, hperforms, hhlt]
  obtain ⟨a, b, -, hfetch⟩ := fetch_cells hpc hcells hd
  rw [step_of_no_line hrun hline, runInstruction_of_fetch_error (hfetch.trans (if_pos hunsupported))]

/-- Settles O11: the instruction that the bytes at PC decode to is the one fetched. -/
theorem stepRunsDecodedInstruction : Obligations.StepRunsDecodedInstruction := by
  intro s i rest hrun hw hline hdecode hcells
  rw [← polled_params s] at hw hdecode hcells
  rw [← polled_pc s] at hdecode hcells
  rw [step_of_no_line hrun hline, runInstruction_of_fetch_ok (fetch_of_decode hw hdecode hcells)]

/-- Settles O43: a Running block enters an interrupt, faults in the fetch or executes an instruction, and each answers a next
state; a Halted one is its own. -/
theorem unfaultedMachineAlwaysSteps : Obligations.UnfaultedMachineAlwaysSteps := by
  intro s hs
  cases hrun : s.run with
  | running =>
    rcases step_running_cases s hrun with ⟨i, -, e⟩ | ⟨-, t, -, e⟩ | ⟨-, i, u, -, e⟩
    · exact ⟨_, e⟩
    · exact ⟨_, e⟩
    · obtain ⟨t, ht, -⟩ := exec_effect u i
      exact ⟨t, e.trans ht⟩
  | halted => exact ⟨s, (step_stopped s).1 hrun⟩
  | faulted r => exact absurd hrun (hs r)

end Sys2Proof.Machine
end

section
/-! PROOF. The ALU's statements (spec 41_alu): what each operation writes and its frame (R110 to R119, R120 to R126), and
the DIV and MOD that fault (R114, R115). -/

namespace Sys2Proof.Machine

/-! ## What an ALU operation answers where its operands name registers (R110) -/

section

variable (s : State)

/-- R110: a two-operand operation writes its result to the first register and PC moves on. -/
theorem aluBinary_regByte (m : Mnemonic) (f : Byte → Byte → Byte) (ra rb : RegIx) :
    aluBinary m f (regByte ra) (regByte rb) s = .next (s.finish m (s.setReg ra (f (s.reg ra) (s.reg rb)))) :=
  withRegs_regByte s m ra rb _

/-- R110: a one-operand operation writes its result to its register and PC moves on. -/
theorem aluUnary_regByte (m : Mnemonic) (f : Byte → Byte) (ra : RegIx) :
    aluUnary m f (regByte ra) s = .next (s.finish m (s.setReg ra (f (s.reg ra)))) :=
  withReg_regByte s m ra _

variable {s}

/-- R114, R115: a division by a source other than 0 is a two-operand operation like the others. -/
theorem aluDivide_of_ne_zero (m : Mnemonic) (f : Byte → Byte → Byte) (ra : RegIx) {rb : RegIx} (h : s.reg rb ≠ 0) :
    aluDivide m f (regByte ra) (regByte rb) s = .next (s.finish m (s.setReg ra (f (s.reg ra) (s.reg rb)))) :=
  (withRegs_regByte s m ra rb _).trans (if_neg h)

/-- R114, R115, R201: a division by 0 raises DivisionByZero and writes nothing. -/
theorem aluDivide_of_eq_zero (m : Mnemonic) (f : Byte → Byte → Byte) (ra : RegIx) {rb : RegIx} (h : s.reg rb = 0) :
    aluDivide m f (regByte ra) (regByte rb) s =
      .next (s.setRun (.faulted ⟨.divisionByZero, s.pc, some (s.opcode m), .operands (regByte ra) (regByte rb)⟩)) :=
  (withRegs_regByte s m ra rb _).trans (if_pos h)

/-! ## The frame of an instruction that moves PC on (R94, R126) -/

/-- R94: where the parameters keep the layout, an instruction that does not set PC moves it past its own bytes. -/
theorem State.finish_pc_advances (hw : s.params.WellFormed) {m : Mnemonic} (hm : m.setsPc = false) (t : State) :
    (s.finish m t).pc = s.pc + (1 + m.operands) := by
  rw [State.finish_advances hw hm, State.setPc_pc, Nat.add_assoc]

/-- An instruction that writes one register and moves PC on changes nothing else. -/
theorem changesOnlyRegs_finish_setReg (hw : s.params.WellFormed) {m : Mnemonic} (hm : m.setsPc = false) (r : RegIx)
    (v : Byte) : ChangesOnlyRegs [r] (1 + m.operands) s (s.finish m (s.setReg r v)) := by
  refine ⟨fun j hj => ?_, State.finish_pc_advances hw hm _, by simp, fun a => by simp, by simp, by simp,
    by simp [SameSystem, SameOutside]⟩
  rw [State.finish_reg, State.reg_setReg_ne s r j v (by simpa using hj)]

/-- The register that was written holds the value, after PC has moved on. -/
theorem finish_setReg_reg (m : Mnemonic) (r : RegIx) (v : Byte) : (s.finish m (s.setReg r v)).reg r = v := by
  simp

end

/-- R124, D22: FL as a number, by the unsigned comparison. -/
theorem compareFlags_toNat (va vb : Byte) : (compareFlags va vb).toNat =
    if va.toNat = vb.toNat then 1 else if va.toNat > vb.toNat then 2 else 4 := by
  simp only [compareFlags, ← BitVec.toNat_inj, gt_iff_lt]
  split
  · rfl
  · split <;> rfl

/-! ## The statements -/

/-- Settles O16: one register write each, of a sum, a difference and a product of bytes. -/
theorem addSubMulWrapModulo256 : Obligations.AddSubMulWrapModulo256 := by
  intro ra rb s hw
  refine ⟨⟨_, aluBinary_regByte s .add _ ra rb, changesOnlyRegs_finish_setReg hw rfl ra _, ?_⟩,
    ⟨_, aluBinary_regByte s .sub _ ra rb, changesOnlyRegs_finish_setReg hw rfl ra _, ?_⟩,
    ⟨_, aluBinary_regByte s .mul _ ra rb, changesOnlyRegs_finish_setReg hw rfl ra _, ?_⟩⟩
  · rw [finish_setReg_reg, BitVec.toNat_add]
  · have hle := (s.reg rb).isLt
    rw [finish_setReg_reg, BitVec.toNat_sub]
    omega
  · rw [finish_setReg_reg, BitVec.toNat_mul]

/-- Settles O17: a source other than 0 makes DIV and MOD one register write each, of a quotient and a remainder. -/
theorem divModQuotientRemainder : Obligations.DivModQuotientRemainder := by
  intro ra rb s hw hne
  refine ⟨⟨_, aluDivide_of_ne_zero .div _ ra hne, changesOnlyRegs_finish_setReg hw rfl ra _, ?_⟩,
    ⟨_, aluDivide_of_ne_zero .mod _ ra hne, changesOnlyRegs_finish_setReg hw rfl ra _, ?_⟩⟩
  · rw [finish_setReg_reg, BitVec.toNat_udiv]
  · rw [finish_setReg_reg, BitVec.toNat_umod]

/-- Settles O18: a source of 0 makes DIV and MOD raise. -/
theorem divModByZeroFault : Obligations.DivModByZeroFault :=
  fun ra _ _ hzero => ⟨aluDivide_of_eq_zero .div _ ra hzero, aluDivide_of_eq_zero .mod _ ra hzero⟩

/-- Settles O19: one register write each, of the bitwise combination; the complement of a byte is 255 minus it. -/
theorem logicWorksBitwise : Obligations.LogicWorksBitwise := by
  intro ra rb s hw
  refine ⟨⟨_, aluBinary_regByte s .and _ ra rb, changesOnlyRegs_finish_setReg hw rfl ra _, fun k => ?_⟩,
    ⟨_, aluBinary_regByte s .or _ ra rb, changesOnlyRegs_finish_setReg hw rfl ra _, fun k => ?_⟩,
    ⟨_, aluBinary_regByte s .xor _ ra rb, changesOnlyRegs_finish_setReg hw rfl ra _, fun k => ?_⟩,
    ⟨_, aluUnary_regByte s .not _ ra, changesOnlyRegs_finish_setReg hw rfl ra _, ?_⟩⟩
  · rw [finish_setReg_reg, BitVec.getLsbD_and]
  · rw [finish_setReg_reg, BitVec.getLsbD_or]
  · rw [finish_setReg_reg, BitVec.getLsbD_xor]
  · rw [finish_setReg_reg, BitVec.toNat_not]

/-- Settles O20: one register write each, of the byte shifted by the whole source byte. -/
theorem shiftsTakeWholeCount : Obligations.ShiftsTakeWholeCount := by
  intro ra rb s hw
  refine ⟨⟨_, aluBinary_regByte s .shl (fun x y => x <<< y.toNat) ra rb,
      changesOnlyRegs_finish_setReg hw rfl ra _, ?_⟩,
    ⟨_, aluBinary_regByte s .shr (fun x y => x >>> y.toNat) ra rb,
      changesOnlyRegs_finish_setReg hw rfl ra _, ?_⟩⟩
  · rw [finish_setReg_reg, BitVec.toNat_shiftLeft, Nat.shiftLeft_eq]
  · rw [finish_setReg_reg, BitVec.toNat_ushiftRight, Nat.shiftRight_eq_div_pow]

/-- Settles O21: one register write each, of a sum of bytes; taking 1 from a byte adds 255 to it. -/
theorem incDecAddiWrapModulo256 : Obligations.IncDecAddiWrapModulo256 := by
  intro ra imm s hw
  refine ⟨⟨_, aluUnary_regByte s .inc (fun x => x + 1) ra, changesOnlyRegs_finish_setReg hw rfl ra _, ?_⟩,
    ⟨_, aluUnary_regByte s .dec (fun x => x - 1) ra, changesOnlyRegs_finish_setReg hw rfl ra _, ?_⟩,
    ⟨_, aluUnary_regByte s .addi (fun x => x + imm) ra, changesOnlyRegs_finish_setReg hw rfl ra _, ?_⟩⟩
  · rw [finish_setReg_reg, BitVec.toNat_add]; rfl
  · rw [finish_setReg_reg]; exact toNat_sub_const _ (by decide)
  · rw [finish_setReg_reg, BitVec.toNat_add]

/-- Settles O22: CMP writes FL and moves PC on, and FL is one of three values. -/
theorem compareSetsExactlyOneFlag : Obligations.CompareSetsExactlyOneFlag := by
  intro ra rb s hw
  refine ⟨_, withRegs_regByte s .cmp ra rb _, ?_, fun j _ => by simp, State.finish_pc_advances hw rfl _,
    fun a => by simp, by simp, by simp, by simp [SameSystem, SameOutside]⟩
  rw [State.finish_fl, State.setFl_fl, compareFlags_toNat]

end Sys2Proof.Machine
end

section
/-! PROOF. The statements of loads and stores (spec 42_load_store): what LDI, LD and ST write and their frame (R140 to
R142), a load from a draw cell among them (R52, R54). -/

namespace Sys2Proof.Machine

/-- R52, R54: a read of a draw cell answers the next draw and counts it; a read of any other answers the cell's byte. -/
theorem State.read_draw_or_cell (s : State) (a : Byte) :
    if 0xF5 ≤ a.toNat ∧ a.toNat ≤ 0xF7 then
      s.peek a = Config.scratchDraw s.draws ∧ (s.afterRead a).draws = s.draws + 1
    else s.peek a = s.mem.read a.toNat ∧ (s.afterRead a).draws = s.draws := by
  split
  next hdraw =>
    have hd := (isScratch_iff a).2 hdraw
    exact ⟨s.peek_draw hd, by rw [State.afterRead_draw hd]⟩
  next hcell =>
    have hc : isScratch a = false := by simpa [← isScratch_iff] using hcell
    exact ⟨s.peek_cell hc, by rw [s.afterRead_cell hc]⟩

/-- Settles O23: one register write, of the immediate. -/
theorem loadImmediateWritesRegister : Obligations.LoadImmediateWritesRegister :=
  fun ra _ s hw => ⟨_, withReg_regByte s .ldi ra _, changesOnlyRegs_finish_setReg hw rfl ra _, finish_setReg_reg _ _ _⟩

/-- Settles O24: one register write, of what the read answers; the read itself counts at most a draw. -/
theorem loadReadsAddressedCell : Obligations.LoadReadsAddressedCell := by
  intro ra rb s hw
  refine ⟨_, withRegs_regByte s .ld ra rb _, ?_, fun j hj => ?_, State.finish_pc_advances hw rfl _,
    by simp, fun a => by simp, by simp, by simp [SameSystem, SameOutside]⟩
  · rw [State.finish_reg, State.reg_setReg_self, State.finish_draws, State.setReg_draws]
    exact s.read_draw_or_cell (s.reg rb)
  · rw [State.finish_reg, State.reg_setReg_ne _ ra j _ (by simpa using hj), State.afterRead_reg]

/-- Settles O25: one memory write, at the address that the first register holds. -/
theorem storeWritesAddressedCell : Obligations.StoreWritesAddressedCell := by
  intro ra rb s hw
  refine ⟨_, withRegs_regByte s .st ra rb _, ?_, fun a ha => ?_, fun j _ => by simp, State.finish_pc_advances hw rfl _,
    by simp, by simp, by simp, by simp [SameSystem, SameOutside]⟩
  · rw [State.finish_mem, State.store_read, if_pos rfl]
  · rw [State.finish_mem, State.store_read, if_neg ha]

end Sys2Proof.Machine
end

section
/-! PROOF. The stack instructions' statements (spec 43_stack): what PUSH and POP write and their frame (R150, R151), and
that a POP undoes a PUSH of the same register (R152). -/

namespace Sys2Proof.Machine

section

variable (s : State)

/-! ## What PUSH and POP answer where their operand names a register (R150, R151) -/

/-- R150: the value of the register before SP changes is pushed. -/
theorem exec_push_regByte (r : RegIx) :
    exec (.push (regByte r)) s = .next (s.finish .push (s.pushByte (s.reg r))) := withReg_regByte s .push r _

/-- R151: a register is popped, and written last. -/
theorem exec_pop_regByte (r : RegIx) : exec (.pop (regByte r)) s = .next (s.finish .pop (s.popReg r)) :=
  withReg_regByte s .pop r _

@[simp] theorem State.finish_sp (m : Mnemonic) (t : State) : (s.finish m t).sp = t.sp := State.finish_reg s m t 7

/-- Moving PC on does not change what a pop answers. -/
@[simp] theorem State.finish_popValue (m : Mnemonic) (t : State) : (s.finish m t).popValue = t.popValue := by
  rw [State.popValue, State.finish_sp]
  exact State.peek_congr _ (by rw [State.finish_mem]) (State.finish_draws s m t)

/-! ## The new top of the stack (R60, R61) -/

/-- R60, D7: a push takes SP to the old top less one, modulo 256. -/
theorem State.pushByte_sp_toNat (v : Byte) : (s.pushByte v).sp.toNat = (s.sp.toNat + 255) % 256 := by
  rw [State.pushByte_sp]
  exact toNat_sub_const s.sp (n := 1) (by decide)

/-- R60: the pushed byte stands at the new top. -/
theorem State.pushByte_read_sp (v : Byte) : (s.pushByte v).mem.read (s.pushByte v).sp.toNat = v := by
  rw [State.pushByte_sp, State.pushByte_mem, Memory.read_write_self]

variable {s}

/-- R60, R61: a pop answers the byte just pushed, where a read of the new top is no draw. -/
theorem State.pushByte_popValue {v : Byte} (hcell : isScratch (s.pushByte v).sp = false) :
    (s.pushByte v).popValue = v :=
  (State.peek_cell _ hcell).trans (s.pushByte_read_sp v)

end

/-! ## The statements -/

/-- Settles O26: the push writes SP and the cell at the new top, and nothing else. -/
theorem pushStoresRegisterBelowTop : Obligations.PushStoresRegisterBelowTop := by
  intro ra s hw
  refine ⟨_, exec_push_regByte s ra, ?_, ?_, fun a ha => ?_, fun j hj => ?_, State.finish_pc_advances hw rfl _,
    by simp, by simp, by simp, by simp [SameSystem, SameOutside]⟩
  · rw [State.finish_sp, State.pushByte_sp_toNat]
  · rw [State.finish_sp, State.finish_mem, State.pushByte_read_sp]
  · rw [State.finish_sp, State.pushByte_sp] at ha
    rw [State.finish_mem, State.pushByte_mem, Memory.read_write_ne _ _ ha]
  · rw [State.finish_reg, State.pushByte_reg, if_neg (by simpa using hj)]

/-- Settles O27: the register holds what the read of the top answers, written after SP has gone up. -/
theorem popLoadsRegisterFromTop : Obligations.PopLoadsRegisterFromTop := by
  intro ra s hw
  refine ⟨_, exec_pop_regByte s ra, ?_, fun hra => ?_, fun j hj => ?_, State.finish_pc_advances hw rfl _,
    by simp, fun a => by simp, by simp, by simp [SameSystem, SameOutside]⟩
  · rw [State.finish_reg, State.popReg_reg, if_pos rfl, State.finish_draws, State.popReg_draws, ← State.afterRead_draws]
    exact s.read_draw_or_cell s.sp
  · rw [State.finish_sp, State.popReg_sp s hra, BitVec.toNat_add]
    rfl
  · obtain ⟨hra, h7⟩ : j ≠ ra ∧ j ≠ 7 := by simpa using hj
    rw [State.finish_reg, State.popReg_reg, if_neg hra, if_neg h7]

/-- Settles O28: the pop answers the pushed byte to the register it came from, and takes SP back up, but for R7, whose old
value was the byte. -/
theorem pushThenPopRestoresRegisters : Obligations.PushThenPopRestoresRegisters := by
  intro ra s hw hcells
  have hcell : isScratch (s.pushByte (s.reg ra)).sp = false := by
    rw [Bool.eq_false_iff, Ne, isScratch_iff, State.pushByte_sp_toNat]
    omega
  have hw' : (s.finish .push (s.pushByte (s.reg ra))).params.WellFormed := by simpa using hw
  refine ⟨_, _, exec_push_regByte s ra, exec_pop_regByte _ ra, fun j _ => ?_, by simp, ?_⟩
  · rw [State.finish_reg, State.popReg_reg, State.finish_popValue, State.pushByte_popValue hcell]
    split
    next hra => rw [hra]
    next =>
      split
      next h7 => rw [h7, State.finish_sp, State.pushByte_sp, BitVec.sub_add_cancel, State.sp]
      next h7 => rw [State.finish_reg, State.pushByte_reg, if_neg h7]
  · rw [State.finish_pc_advances hw' rfl, State.finish_pc_advances hw rfl]
    rfl

end Sys2Proof.Machine
end

section
/-! PROOF. The statements of control transfer (spec 44_control): the conditions of the seven jumps (R160 to R167), the CALLs
that complete and those that fault (R168), RET (R169), and that a RET comes back from a CALL. -/

namespace Sys2Proof.Machine

/-! ## The conditions on FL (R26, R162 to R167) -/

/-- A bit of a byte, as a digit of the number. -/
theorem getLsbD_iff_div_mod (v : Byte) (k : Nat) : v.getLsbD k = true ↔ v.toNat / 2 ^ k % 2 = 1 := by
  rw [BitVec.getLsbD, Nat.testBit_eq_decide_div_mod_eq, decide_eq_true_iff]

theorem flagE_iff (fl : Byte) : flagE fl = true ↔ fl.toNat % 2 = 1 := by
  rw [flagE, getLsbD_iff_div_mod, pow_zero, Nat.div_one]

theorem flagG_iff (fl : Byte) : flagG fl = true ↔ fl.toNat / 2 % 2 = 1 := getLsbD_iff_div_mod fl 1

theorem flagL_iff (fl : Byte) : flagL fl = true ↔ fl.toNat / 4 % 2 = 1 := getLsbD_iff_div_mod fl 2

theorem condNe_iff (fl : Byte) : condNe fl = true ↔ ¬ fl.toNat % 2 = 1 := by
  rw [condNe, Bool.not_eq_true', ← flagE_iff, Bool.not_eq_true]

theorem condGe_iff (fl : Byte) : condGe fl = true ↔ fl.toNat / 2 % 2 = 1 ∨ fl.toNat % 2 = 1 := by
  rw [condGe, Bool.or_eq_true, flagG_iff, flagE_iff]

theorem condLe_iff (fl : Byte) : condLe fl = true ↔ fl.toNat / 4 % 2 = 1 ∨ fl.toNat % 2 = 1 := by
  rw [condLe, Bool.or_eq_true, flagL_iff, flagE_iff]

/-! ## The state after a RET, field by field (R61, R169) -/

section

variable (s : State)

@[simp] theorem State.popPc_pc : s.popPc.pc = s.popValue.toNat := rfl

@[simp] theorem State.popPc_draws : s.popPc.draws = (s.afterRead s.sp).draws := rfl

@[simp] theorem State.popPc_sp : s.popPc.sp = s.sp + 1 := s.afterPop_sp

theorem State.popPc_reg (j : RegIx) : s.popPc.reg j = if j = 7 then s.sp + 1 else s.reg j := s.afterPop_reg j

@[simp] theorem State.setPc_sp (n : Nat) : (s.setPc n).sp = s.sp := rfl

@[simp] theorem State.setPc_popValue (n : Nat) : (s.setPc n).popValue = s.popValue := rfl

end

/-! ## What jumps, CALL and RET answer where their operand names a register (R160, R168, R169) -/

section

variable {s : State} (hw : s.params.WellFormed)

include hw

/-- R160: a jump of two bytes goes to the register's value where its condition holds, else on to the next instruction. -/
theorem jumpIf_regByte {m : Mnemonic} (hsets : m.setsPc = true) (hoperands : m.operands = 1) {cond : Byte → Bool}
    {P : Prop} [Decidable P] (hcond : cond s.fl = true ↔ P) (ra : RegIx) :
    jumpIf m cond (regByte ra) s = if P then .next (s.setPc (s.reg ra).toNat) else .next (s.setPc (s.pc + 2)) := by
  rw [jumpIf, withReg_regByte, State.finish_setsPc hw hsets, State.nextPc_eq hw, hoperands]
  simp only [hcond]
  split <;> rfl

/-- R168: CALL pushes the return address, where it fits a cell, and goes to the register's value before the push. -/
theorem exec_call_regByte (ra : RegIx) (hpc : s.pc + 2 ≤ 0xFF) : exec (.call (regByte ra)) s =
    .next ((s.pushByte (BitVec.ofNat 8 (s.pc + 2))).setPc (s.reg ra).toNat) := by
  have hpush : push (s.pc + 2) s = .ok (s.pushByte (BitVec.ofNat 8 (s.pc + 2))) := if_neg (by omega)
  refine (withReg_regByte s .call ra _).trans ?_
  rw [hpush]
  exact congrArg _ (State.finish_setsPc hw rfl _)

/-- R169: RET pops PC. -/
theorem exec_ret : exec .ret s = .next s.popPc := congrArg _ (State.finish_setsPc hw rfl _)

end

/-! ## The statements -/

/-- Settles O29: each jump is the one rule with its own condition on FL; JMP's always holds. -/
theorem jumpsFollowFlags : Obligations.JumpsFollowFlags := by
  intro ra s hw
  have halways : (fun _ => true) s.fl = true ↔ True := iff_of_true rfl trivial
  exact ⟨(jumpIf_regByte (m := .jmp) (cond := fun _ => true) hw rfl rfl halways ra).trans (if_pos trivial),
    jumpIf_regByte hw rfl rfl (flagE_iff s.fl) ra,
    (jumpIf_regByte hw rfl rfl (condNe_iff s.fl) ra).trans (ite_not _ _ _),
    jumpIf_regByte hw rfl rfl (flagG_iff s.fl) ra,
    jumpIf_regByte hw rfl rfl (flagL_iff s.fl) ra,
    jumpIf_regByte hw rfl rfl (condGe_iff s.fl) ra,
    jumpIf_regByte hw rfl rfl (condLe_iff s.fl) ra⟩

/-- Settles O30: the push writes SP and the cell at the new top; PC is then set. -/
theorem callPushesReturnAddress : Obligations.CallPushesReturnAddress := by
  intro ra s hw hpc
  refine ⟨_, exec_call_regByte hw ra hpc, State.setPc_pc _ _, ?_, ?_, fun a ha => ?_, fun j hj => ?_, by simp,
    by simp, by simp, by simp [SameSystem, SameOutside]⟩
  · rw [State.setPc_sp, State.pushByte_sp_toNat]
  · rw [State.setPc_mem, State.setPc_sp, State.pushByte_read_sp, BitVec.toNat_ofNat]
    omega
  · rw [State.setPc_sp, State.pushByte_sp] at ha
    rw [State.setPc_mem, State.pushByte_mem, Memory.read_write_ne _ _ ha]
  · rw [State.setPc_reg, State.pushByte_reg, if_neg (by simpa using hj)]

/-- Settles O31: the push of a return address above 0xFF raises before anything is written. -/
theorem callPastTopFaults : Obligations.CallPastTopFaults := by
  intro ra s hpc
  have hpush : push (s.pc + 2) s = .error (s.pc + 2) := if_pos hpc
  refine (withReg_regByte s .call ra _).trans ?_
  rw [hpush]
  rfl

/-- Settles O32: PC holds what the read of the top answers; only SP and the count of draws change beside it. -/
theorem returnPopsProgramCounter : Obligations.ReturnPopsProgramCounter := by
  intro s hw
  refine ⟨_, exec_ret hw, ?_, ?_, fun j hj => ?_, by simp, fun a => by simp, by simp, by simp [SameSystem, SameOutside]⟩
  · have hread := s.read_draw_or_cell s.sp
    rw [State.popPc_pc, State.popPc_draws, State.popValue]
    split
    next hdraw =>
      rw [if_pos hdraw] at hread
      exact hread.imp_left (congrArg BitVec.toNat)
    next hcell =>
      rw [if_neg hcell] at hread
      exact hread.imp_left (congrArg BitVec.toNat)
  · rw [State.popPc_sp, BitVec.toNat_add]
    rfl
  · rw [State.popPc_reg, if_neg (by simpa using hj)]

/-- Settles O33: the RET pops the return address that the CALL pushed, and takes SP back up. -/
theorem callThenReturnComesBack : Obligations.CallThenReturnComesBack := by
  intro ra s hw hpc hcells
  have hcell : isScratch (s.pushByte (BitVec.ofNat 8 (s.pc + 2))).sp = false := by
    rw [Bool.eq_false_iff, Ne, isScratch_iff, State.pushByte_sp_toNat]
    omega
  refine ⟨_, _, exec_call_regByte hw ra hpc, exec_ret hw, ?_, fun j _ => ?_, by simp⟩
  · rw [State.popPc_pc, State.setPc_popValue, State.pushByte_popValue hcell, BitVec.toNat_ofNat]
    omega
  · rw [State.popPc_reg]
    split
    next h7 => rw [h7, State.setPc_sp, State.pushByte_sp, BitVec.sub_add_cancel, State.sp]
    next h7 => rw [State.setPc_reg, State.pushByte_reg, if_neg h7]

end Sys2Proof.Machine
end

section
/-! PROOF. The system instructions' statements (spec 45_system): NOP and HLT (R180, R181), INT and its line number (R182),
IRET as nine pops (R183), PRN and PRA (R185, R186), and what `INT_ADVANCES_PC` and `IRET_SETS_IE` change (R9). -/

namespace Sys2Proof.Machine

/-! ## The parameters as a field of their own (R9) -/

/-- The state with other values of the named parameters. -/
def State.setParams (s : State) (p : Params) : State := { s with params := p }

@[simp] theorem State.setParams_params (s : State) (p : Params) : (s.setParams p).params = p := rfl

@[simp] theorem State.setParams_ie (s : State) (p : Params) : (s.setParams p).ie = s.ie := rfl

/-! ## Pops and writes that do not meet (R61)

A pop looks at SP, memory and the count of draws only, so that a write of another field or register can be moved after it. -/

section

variable (s : State)

/-- A pop takes the count of draws and SP on. -/
theorem State.afterPop_eq :
    s.afterPop = { s with regs := s.regs.set 7 (s.sp + 1), draws := s.draws + if isScratch s.sp then 1 else 0 } := by
  cases h : isScratch s.sp <;> simp [State.afterPop, State.afterRead, State.setReg, h]

variable {j : RegIx} (hj : j ≠ 7) (v : Byte)

include hj

theorem State.setReg_sp : (s.setReg j v).sp = s.sp := State.reg_setReg_ne s j 7 v hj.symm

theorem State.setReg_popValue : (s.setReg j v).popValue = s.popValue := by
  rw [State.popValue, State.setReg_sp s hj]
  exact State.peek_congr _ rfl rfl

theorem State.setReg_afterPop : (s.setReg j v).afterPop = s.afterPop.setReg j v := by
  have h7 : j.val ≠ (7 : Fin 8).val := fun h => hj (Fin.ext h)
  have hregs : (s.regs.set j v).set 7 (s.sp + 1) = (s.regs.set 7 (s.sp + 1)).set j v := Vector.set_comm _ _ h7
  rw [State.afterPop_eq, State.setReg_sp s hj, State.setReg_regs, hregs, s.afterPop_eq]
  rfl

omit hj

@[simp] theorem State.setFl_popValue : (s.setFl v).popValue = s.popValue := rfl

@[simp] theorem State.setFl_afterPop : (s.setFl v).afterPop = s.afterPop.setFl v := by
  rw [State.afterPop_eq, s.afterPop_eq]
  rfl

variable (p : Params)

theorem State.setParams_afterPop : (s.setParams p).afterPop = s.afterPop.setParams p := by
  rw [State.afterPop_eq, s.afterPop_eq]
  rfl

theorem State.setParams_popReg (j : RegIx) : (s.setParams p).popReg j = (s.popReg j).setParams p :=
  congrArg (State.setReg · j s.popValue) (s.setParams_afterPop p)

theorem State.setParams_popFl : (s.setParams p).popFl = s.popFl.setParams p :=
  congrArg (State.setFl · s.popValue) (s.setParams_afterPop p)

theorem State.setParams_popPc : (s.setParams p).popPc = s.popPc.setParams p :=
  congrArg (State.setPc · s.popValue.toNat) (s.setParams_afterPop p)

/-- R61: n pops take SP n up, modulo 256. -/
theorem State.iterate_afterPop_sp_toNat (n : Nat) : (State.afterPop^[n] s).sp.toNat = (s.sp.toNat + n) % 256 := by
  induction n with
  | zero => exact (Nat.mod_eq_of_lt s.sp.isLt).symm
  | succ n ih =>
    rw [Function.iterate_succ_apply', State.afterPop_sp, BitVec.toNat_add, ih, Nat.mod_add_mod]
    rfl

/-! ## The nine pops of an IRET (R183) -/

/-- What IRET pops: R6 down to R0, FL and PC. -/
def State.popContext : State := (([6, 5, 4, 3, 2, 1, 0] : List RegIx).foldl State.popReg s).popFl.popPc

/-- What the k-th pop in a row answers, counted from 0. -/
def State.popped (k : Nat) : Byte := (State.afterPop^[k] s).popValue

/-- R183: nine pops in a row, with each answer written to its register, to FL or to PC. -/
theorem State.popContext_eq : s.popContext =
    (((((((((State.afterPop^[9] s).setReg 6 (s.popped 0)).setReg 5 (s.popped 1)).setReg 4 (s.popped 2)).setReg 3
      (s.popped 3)).setReg 2 (s.popped 4)).setReg 1 (s.popped 5)).setReg 0 (s.popped 6)).setFl (s.popped 7)).setPc
      (s.popped 8).toNat := by
  simp [State.popContext, State.popReg, State.popFl, State.popPc, State.popped, State.setReg_popValue,
    State.setReg_afterPop]

/-- R183: register j is the answer of pop 6 - j. -/
theorem State.popContext_reg {j : RegIx} (hj : j ≠ 7) : s.popContext.reg j = s.popped (6 - j.val) := by
  rw [State.popContext_eq]
  fin_cases j <;> simp_all

@[simp] theorem State.popContext_sp : s.popContext.sp = (State.afterPop^[9] s).sp := by
  rw [State.popContext_eq]
  simp [State.sp]

@[simp] theorem State.popContext_fl : s.popContext.fl = s.popped 7 := by
  rw [State.popContext_eq, State.setPc_fl, State.setFl_fl]

@[simp] theorem State.popContext_pc : s.popContext.pc = (s.popped 8).toNat := by
  rw [State.popContext_eq, State.setPc_pc]

@[simp] theorem State.popContext_draws : s.popContext.draws = (State.afterPop^[9] s).draws := by
  simp only [State.popContext_eq, State.setPc_draws, State.setFl_draws, State.setReg_draws]

@[simp] theorem State.popContext_ie : s.popContext.ie = s.ie := by simp [State.popContext]

/-- The pops do not look at the parameters. -/
theorem State.setParams_popContext : (s.setParams p).popContext = s.popContext.setParams p := by
  rw [State.popContext, List.foldl_hom (State.setParams · p) fun u j => u.setParams_popReg p j, State.setParams_popFl,
    State.setParams_popPc, State.popContext]

@[simp] theorem State.setIe_sp (b : Bool) : (s.setIe b).sp = s.sp := rfl

theorem State.setIe_ie_self : s.setIe s.ie = s := rfl

/-- R183, D12: the pops, and IE set where `IRET_SETS_IE` holds. -/
theorem interruptReturn_eq : interruptReturn s = s.popContext.setIe (s.params.iretSetsIe || s.ie) := by
  have hunfold : interruptReturn s = if s.params.iretSetsIe then s.popContext.setIe true else s.popContext := rfl
  rw [hunfold]
  cases s.params.iretSetsIe with
  | true => rfl
  | false => rw [Bool.false_or, ← s.popContext_ie, State.setIe_ie_self]; rfl

end

/-! ## What each instruction answers (R180 to R186) -/

section

variable {s : State} (hw : s.params.WellFormed)

/-- R182, D11: a register that holds more than 7 names no line, and INT raises OutOfBounds before it writes. -/
theorem exec_int_of_no_line {ra : RegIx} (h : 7 < (s.reg ra).toNat) : exec (.int (regByte ra)) s =
    .next (s.setRun (.faulted ⟨.outOfBounds, s.pc, some (s.params.opcode .int), .value (s.reg ra).toNat⟩)) := by
  refine (withReg_regByte s .int ra _).trans ?_
  rw [index8_none.2 h]
  rfl

include hw

/-- R180. -/
theorem exec_nop : exec .nop s = .next (s.setPc (s.pc + 1)) := congrArg _ (State.finish_advances hw rfl s)

/-- R181. -/
theorem exec_hlt : exec .hlt s = .next ((s.setPc (s.pc + 1)).setRun .halted) :=
  exec_hlt_eq_next.2 (by rw [State.nextPc_eq hw]; rfl)

/-- R182, D11: the line's bit is set, and PC moves past the two bytes where `INT_ADVANCES_PC` holds. -/
theorem exec_int_of_line {ra : RegIx} {line : Fin 8} (h : (s.reg ra).toNat = line.val) : exec (.int (regByte ra)) s =
    .next ((s.setPending line).setPc (s.pc + if s.params.intAdvancesPc then 2 else 0)) := by
  refine (withReg_regByte s .int ra _).trans ?_
  rw [index8_some.2 h, State.nextPc_eq hw]
  dsimp only
  rw [State.finish_setsPc hw rfl]
  split <;> rfl

/-- R183. -/
theorem exec_iret : exec .iret s = .next (s.popContext.setIe (s.params.iretSetsIe || s.ie)) := by
  rw [← interruptReturn_eq]
  exact congrArg _ (State.finish_setsPc hw rfl _)

/-- R185. -/
theorem exec_prn_regByte (ra : RegIx) :
    exec (.prn (regByte ra)) s = .next ((s.emit .num (s.reg ra)).setPc (s.pc + 2)) :=
  (withReg_regByte s .prn ra _).trans (congrArg _ (State.finish_advances hw rfl _))

/-- R186. -/
theorem exec_pra_regByte (ra : RegIx) :
    exec (.pra (regByte ra)) s = .next ((s.emit .chr (s.reg ra)).setPc (s.pc + 2)) :=
  (withReg_regByte s .pra ra _).trans (congrArg _ (State.finish_advances hw rfl _))

end

/-- R183 under other values of the parameters: they enter into IE alone. -/
theorem exec_iret_setParams (s : State) {p : Params} (hp : p.WellFormed) : exec .iret (s.setParams p) =
    .next ((s.popContext.setParams p).setIe (p.iretSetsIe || s.ie)) := by
  rw [exec_iret (s := s.setParams p) hp, State.setParams_popContext, State.setParams_params, State.setParams_ie]

/-! ## The statements -/

/-- Settles O34: neither has an operand, so PC moves one byte on. -/
theorem nopAdvancesAndHltHalts : Obligations.NopAdvancesAndHltHalts := fun _ hw => ⟨exec_nop hw, exec_hlt hw⟩

/-- Settles O35: INT writes R6 and PC, and of R6 the one bit. -/
theorem intSetsPendingBit : Obligations.IntSetsPendingBit := by
  intro ra s hw hline
  refine ⟨_, exec_int_of_line hw (line := ⟨_, Nat.lt_succ_of_le hline⟩) rfl, State.setPending_bit s _, fun j hj => ?_, rfl,
    rfl, fun _ => rfl, rfl, rfl, rfl, rfl, rfl, rfl, rfl⟩
  exact State.setPending_reg_ne s _ j (by simpa using hj)

/-- Settles O36: no line has such a number. -/
theorem intLineAboveSevenFaults : Obligations.IntLineAboveSevenFaults := fun _ _ => exec_int_of_no_line

/-- Settles O37: the PC that INT leaves and the IE that IRET leaves are all that the two parameters enter into. -/
theorem parametersChangeOnlyPcAndLatch : Obligations.ParametersChangeOnlyPcAndLatch := by
  intro ra s hw intOn intOff ieOn ieOff
  refine ⟨fun hline => ?_, ?_⟩
  · have hint (p : Params) (hp : p.WellFormed) := exec_int_of_line (s := s.setParams p) hp (ra := ra)
      (line := ⟨_, Nat.lt_succ_of_le hline⟩) rfl
    exact ⟨_, _, hint intOn.params hw, hint intOff.params hw, rfl, rfl, rfl⟩
  · have hiret {p : Params} (hp : p.WellFormed) := exec_iret_setParams s hp
    generalize s.popContext = c at hiret
    exact ⟨_, _, hiret (p := ieOn.params) hw, hiret (p := ieOff.params) hw, rfl, rfl, rfl⟩

/-- Settles O38: the nine pops by their closed form, the rest by the frame of a return from an interrupt. -/
theorem iretPopsContext : Obligations.IretPopsContext := by
  intro s hw
  obtain ⟨hmem, hrun, hout, hsame, hie, -⟩ := interruptReturn_rest s
  rw [interruptReturn_eq] at hmem hrun hout hsame hie
  refine ⟨_, exec_iret hw, fun j hj => ?_, ?_, ?_, ?_, ?_, hie, fun a => by rw [hmem], hout, hrun, hsame⟩
  · rw [State.setIe_reg, State.popContext_reg s hj, State.popped]
  · rw [State.setIe_fl, State.popContext_fl, State.popped]
  · rw [State.setIe_pc, State.popContext_pc, State.popped]
  · rw [State.setIe_sp, State.popContext_sp, State.iterate_afterPop_sp_toNat]
  · rw [State.setIe_draws, State.popContext_draws]

/-- Settles O39: the event is added and PC moves past the two bytes. -/
theorem prnPraEmitOneEvent : Obligations.PrnPraEmitOneEvent := fun ra _ hw => ⟨exec_prn_regByte hw ra, exec_pra_regByte hw ra⟩

end Sys2Proof.Machine
end

section
/-! PROOF. The statements of faults and interrupts (spec 60_exceptions): where an instruction faults and what a faulting cycle
leaves (R201 to R204), which line the interrupt check takes (R209, R210, R213), what an entry saves or raises (R211, R212,
R218), and that IRET undoes an entry (R215). -/

namespace Sys2Proof.Machine

/-! ## Where an instruction faults (R203, R204) -/

section

variable {s : State}

/-- R85: a byte of at most 7 is the operand byte of a register. -/
theorem exists_regByte_eq {a : Byte} (h : a.toNat ≤ 7) : ∃ r : RegIx, a = regByte r :=
  ⟨⟨a.toNat, by omega⟩, by simp [regByte]⟩

/-- R86: a register operand that is the only one and is not bad names a register. -/
theorem exists_regByte_of_badOperand_none {a : Byte} (h : [a].find? (fun r => decide (7 < r.toNat)) = none) :
    ∃ r : RegIx, a = regByte r :=
  exists_regByte_eq (by simpa using h)

/-- R86: two register operands of which none is bad name a register each. -/
theorem exists_regBytes_of_badOperand_none {a b : Byte}
    (h : [a, b].find? (fun r => decide (7 < r.toNat)) = none) : ∃ ra rb : RegIx, a = regByte ra ∧ b = regByte rb := by
  obtain ⟨ha, hb⟩ : a.toNat ≤ 7 ∧ b.toNat ≤ 7 := by simpa using h
  obtain ⟨ra, hra⟩ := exists_regByte_eq ha
  obtain ⟨rb, hrb⟩ := exists_regByte_eq hb
  exact ⟨ra, rb, hra, hrb⟩

theorem regByte_toNat (r : RegIx) : (regByte r).toNat = r.val := index8_some.1 (index8_regByte r)

/-- The value of the operand that names a register is the register's. -/
@[simp] theorem operandValue_regByte (s : State) (r : RegIx) : operandValue s (regByte r) = (s.reg r).toNat := by
  simp only [operandValue, regByte_toNat]
  exact dif_pos r.isLt

/-- R203: where the operands name registers, a fault of the table below the operand rows is raised with R201's record, and
nothing else is written. -/
theorem exec_of_ownFault_some {i : Instr} {kind : FaultKind} {info : FaultInfo} (hop : badOperand i = none)
    (hown : ownFault i s = some (kind, info)) :
    exec i s = .next (s.setRun (.faulted ⟨kind, s.pc, some (s.params.opcode i.mnemonic), info⟩)) := by
  cases i with
  | div a b | mod a b =>
    obtain ⟨ra, rb, rfl, rfl⟩ := exists_regBytes_of_badOperand_none hop
    obtain ⟨hzero, rfl, rfl⟩ : (s.reg rb).toNat = 0 ∧ _ = kind ∧ _ = info := by simpa [ownFault] using hown
    exact aluDivide_of_eq_zero _ _ ra (BitVec.eq_of_toNat_eq hzero)
  | call a =>
    obtain ⟨ra, rfl⟩ := exists_regByte_of_badOperand_none hop
    obtain ⟨hpc, rfl, rfl⟩ : 0xFF < s.pc + 2 ∧ _ = kind ∧ _ = info := by simpa [ownFault] using hown
    exact callPastTopFaults ra s hpc
  | int a =>
    obtain ⟨ra, rfl⟩ := exists_regByte_of_badOperand_none hop
    obtain ⟨hline, rfl, rfl⟩ : 7 < (s.reg ra).toNat ∧ _ = kind ∧ _ = info := by simpa [ownFault] using hown
    exact exec_int_of_no_line hline
  | nop | hlt | ret | iret | push | pop | prn | pra | jmp | jeq | jne | jgt | jlt | jle | jge | inc | dec | not | ldi | ld
  | st | add | sub | mul | cmp | and | or | xor | shl | shr | addi => cases hown

/-- An outcome that is a next state in which the run has not failed. -/
def Completes (o : Outcome) : Prop := ∃ t, o = .next t ∧ NoFault t

theorem completes_of_run_eq {t : State} (hs : NoFault s) (h : t.run = s.run) : Completes (.next t) :=
  ⟨t, rfl, fun r hr => hs r (h.symm.trans hr)⟩

/-- A register operand that is not bad raises nothing. -/
theorem withReg_completes {m : Mnemonic} {a : Byte} {k : RegIx → Outcome}
    (hop : [a].find? (fun r => decide (7 < r.toNat)) = none) (h : ∀ r, a = regByte r → Completes (k r)) :
    Completes (withReg m a s k) := by
  obtain ⟨r, rfl⟩ := exists_regByte_of_badOperand_none hop
  rw [withReg_regByte]
  exact h r rfl

/-- Two register operands of which none is bad raise nothing. -/
theorem withRegs_completes {m : Mnemonic} {a b : Byte} {k : RegIx → RegIx → Outcome}
    (hop : [a, b].find? (fun r => decide (7 < r.toNat)) = none) (h : ∀ ra rb, b = regByte rb → Completes (k ra rb)) :
    Completes (withRegs m a b s k) := by
  obtain ⟨ra, rb, rfl, rfl⟩ := exists_regBytes_of_badOperand_none hop
  rw [withRegs_regByte]
  exact h ra rb rfl

/-- R203: where the operands name registers and the table names no other fault, the instruction completes. -/
theorem exec_completes {i : Instr} (hs : NoFault s) (hop : badOperand i = none) (hown : ownFault i s = none) :
    Completes (exec i s) := by
  cases i with
  | hlt => exact ⟨_, rfl, nofun⟩
  | iret =>
    obtain ⟨-, hrun, -⟩ := interruptReturn_rest s
    exact completes_of_run_eq hs (by simpa using hrun)
  | nop | ret => exact completes_of_run_eq hs (by simp)
  | div a b | mod a b =>
    refine withRegs_completes hop fun ra rb hb => ?_
    subst hb
    have hne : s.reg rb ≠ 0 := fun h => by simp [ownFault, h] at hown
    rw [if_neg hne]
    exact completes_of_run_eq hs (by simp)
  | call a =>
    refine withReg_completes hop fun ra _ => ?_
    have hpc : ¬ 0xFF < s.pc + 2 := by simpa [ownFault] using hown
    simp only [push, if_neg hpc]
    exact completes_of_run_eq hs (by simp)
  | int a =>
    refine withReg_completes hop fun ra ha => ?_
    subst ha
    cases hline : index8 (s.reg ra) with
    | some line => exact completes_of_run_eq hs (by simp)
    | none => simp [ownFault, index8_none.1 hline] at hown
  | push | pop | prn | pra | jmp | jeq | jne | jgt | jlt | jle | jge | inc | dec | not | ldi | addi =>
    exact withReg_completes hop fun _ _ => completes_of_run_eq hs (by simp)
  | ld | st | add | sub | mul | cmp | and | or | xor | shl | shr =>
    exact withRegs_completes hop fun _ _ _ => completes_of_run_eq hs (by simp)

end

/-- Settles O41: a bad register operand, else a fault of the instruction's own, else the instruction completes. -/
theorem instructionFaultsExactlyAsTabled : Obligations.InstructionFaultsExactlyAsTabled := by
  intro i s hs
  cases hop : badOperand i with
  | some r =>
    simp only [expectedFault, hop]
    exact registerOperandOutOfRangeFaults i r s hop
  | none =>
    cases hown : ownFault i s with
    | some fault =>
      simp only [expectedFault, hop, hown]
      exact exec_of_ownFault_some hop hown
    | none =>
      simp only [expectedFault, hop, hown]
      exact exec_completes hs hop hown

/-! ## What a faulting cycle leaves (R200 to R202) -/

/-- What R201 and R202 ask of a faulting cycle that began with PC at pc, under the parameters p. -/
def FaultsAt (pc : Nat) (p : Params) (r : FaultRecord) (t : State) : Prop :=
  r.pc = pc ∧ t.pc = pc ∧ r.kind ≠ .programLoadError ∧ (r.kind = .unsupportedOperation → ¬ p.WellFormed)

/-- R201: a state that a raise has left faults at the PC it was raised with. -/
theorem faultsAt_raise {s : State} {kind : FaultKind} {op : Option Byte} {info : FaultInfo} {r : FaultRecord} {p : Params}
    (h : (raise kind op info s).run = .faulted r) (hload : kind ≠ .programLoadError)
    (hunsupported : kind = .unsupportedOperation → ¬ p.WellFormed) : FaultsAt s.pc p r (raise kind op info s) := by
  cases h
  exact ⟨rfl, rfl, hload, hunsupported⟩

/-- R211, R218: an entry that faults leaves PC. -/
theorem interruptEntry_faultsAt {s : State} {i : Fin 8} {r : FaultRecord} (hrun : s.run = .running)
    (h : (interruptEntry i s).run = .faulted r) (p : Params) : FaultsAt s.pc p r (interruptEntry i s) := by
  rcases interruptEntry_cases s i with ⟨-, u, rfl, e⟩ | ⟨-, e⟩
  · simp [e, hrun] at h
  · rw [e] at h ⊢
    exact faultsAt_raise h (by decide) nofun

/-- R203: an instruction that faults leaves PC. -/
theorem Effect.faultsAt {i : Instr} {s t : State} {r : FaultRecord} (he : Effect i s t) (hrun : s.run = .running)
    (h : t.run = .faulted r) (p : Params) : FaultsAt s.pc p r t := by
  cases he with
  | faults kind info hkind => exact faultsAt_raise h (by rintro rfl; simp at hkind) (by rintro rfl; simp at hkind)
  | halts => cases h
  | irets =>
    obtain ⟨-, hsame, -⟩ := interruptReturn_rest s
    simp [hsame, hrun] at h
  | advances | writesReg | loads | compares | stores | pushes | pops | emits | jumps | fallsThrough | calls | returns
  | pends => simp [hrun] at h

/-- Settles O42: of an entry, of a fetch and of an instruction, each from the PC that the polls left. -/
theorem faultRecordNamesFaultingPc : Obligations.FaultRecordNamesFaultingPc := by
  intro s t r hrun hstep hfault
  have hpolled : (polled s).run = .running := (polled_run s).trans hrun
  have hgoal : FaultsAt (polled s).pc (polled s).params r t := by
    rcases step_running_cases s hrun with ⟨i, -, e⟩ | ⟨-, u, hfetch, e⟩ | ⟨-, i, u, hfetch, e⟩
    · cases e.symm.trans hstep
      exact interruptEntry_faultsAt hpolled hfault _
    · cases e.symm.trans hstep
      obtain ⟨kind, op, info, v, rfl, hv, hload, hunsupported⟩ := fetch_error hfetch
      rw [hv] at hfault ⊢
      exact faultsAt_raise hfault hload hunsupported
    · obtain ⟨hu, -⟩ := fetch_ok hfetch
      have heffect := effect_of_exec u (e.symm.trans hstep)
      rw [hu] at heffect
      exact heffect.faultsAt hpolled hfault _
  simpa [FaultsAt] using hgoal

/-! ## The interrupt check (R209, R210, R213) -/

/-- R213: a cycle whose check takes a line is the entry alone. -/
theorem step_of_line {s : State} {i : Fin 8} (hrun : s.run = .running) (hline : activeLine (polled s) = some i) :
    step s = .next (interruptEntry i (polled s)) := by
  rw [step_running hrun]
  simp only [afterPolls, hline]

/-- R209: with IE = 0 no line is taken. -/
theorem activeLine_of_ie_false {s : State} (h : s.ie = false) : activeLine s = none := by simp [activeLine, h]

/-- R209: where R5 and R6 share no bit, no line is taken. -/
theorem activeLine_of_none_pending {s : State} (h : s.reg 5 &&& s.reg 6 = 0) : activeLine s = none := by
  have hlowest : lowestLine (s.im &&& s.is) = none := lowestLine_none.2 h
  simp [activeLine, hlowest]

/-- R210: with IE = 1 the least line set in both R5 and R6 is taken. -/
theorem activeLine_of_least {s : State} {i : Fin 8} (hie : s.ie = true) (hmask : (s.reg 5).getLsbD i = true)
    (hpending : (s.reg 6).getLsbD i = true)
    (hleast : ∀ j : Fin 8, j < i → ((s.reg 5).getLsbD j && (s.reg 6).getLsbD j) = false) : activeLine s = some i := by
  refine (activeLine_some s).2 ⟨hie, lowestLine_some.2 ⟨?_, fun j hj => ?_⟩⟩
  · rw [BitVec.getLsbD_and, State.im, State.is, hmask, hpending]; rfl
  · rw [BitVec.getLsbD_and]; exact hleast j hj

/-! ## The state after an entry (R211, R212, R218) -/

section

variable (i : Fin 8) (s : State)

/-- R211: an entry writes no register but R6, whose pending bit it clears, and SP. -/
theorem interruptEntry_reg {j : RegIx} (hj : j ≠ 7) : (interruptEntry i s).reg j = (s.clearPending i).reg j := by
  rcases interruptEntry_cases s i with ⟨-, u, rfl, e⟩ | ⟨-, e⟩ <;> rw [e]
  · rw [State.setPc_reg, State.afterRead_reg, State.pushContext_reg, if_neg hj, State.pushByte_reg, if_neg hj]
    rfl
  · rfl

/-- R211: of the pending bits an entry clears the line's own. -/
theorem interruptEntry_pendingBit {k : Nat} (hk : k < 8) :
    ((interruptEntry i s).reg 6).getLsbD k = ((s.reg 6).getLsbD k && !decide (k = i.val)) := by
  rw [interruptEntry_reg i s (by decide), s.clearPending_bit i k hk]

/-- R218, D8: where PC does not fit a cell, an entry raises after IE and the pending bit were cleared. -/
theorem interruptEntry_of_pc_gt (hpc : 0xFF < s.pc) : interruptEntry i s =
    ((s.setIe false).clearPending i).setRun (.faulted ⟨.outOfBounds, s.pc, none, .value s.pc⟩) := by
  rcases interruptEntry_cases s i with ⟨hpc', -⟩ | ⟨-, e⟩
  · omega
  · exact e

end

section

variable (s : State) (b : Byte)

/-! The frame of `State.pushContext_read`, cell by cell: the first byte pushed stands highest (R212). -/

theorem State.pushContext_read_first : (s.pushByte b).pushContext.mem.read ((s.sp.toNat + 255) % 256) = b := by
  rw [State.pushContext_read]
  iterate 8 rw [if_neg (by omega)]
  exact if_pos rfl

theorem State.pushContext_read_fl : (s.pushByte b).pushContext.mem.read ((s.sp.toNat + 254) % 256) = s.fl := by
  rw [State.pushContext_read]
  iterate 7 rw [if_neg (by omega)]
  exact if_pos rfl

theorem State.pushContext_read_reg {j : RegIx} (hj : j ≠ 7) :
    (s.pushByte b).pushContext.mem.read ((s.sp.toNat + 253 - j.val) % 256) = s.reg j := by
  have hj7 : j.val ≠ 7 := fun h => hj (Fin.ext h)
  rw [State.pushContext_read]
  split_ifs
  iterate 7 exact congrArg s.reg (Fin.ext (by omega))
  all_goals omega

theorem State.pushContext_read_outside {a : Nat} (ha : ∀ n, n < 9 → a ≠ (s.sp.toNat + 247 + n) % 256) :
    (s.pushByte b).pushContext.mem.read a = s.mem.read a := by
  rw [State.pushContext_read, if_neg (ha 0 (by decide)), if_neg (ha 1 (by decide)), if_neg (ha 2 (by decide)),
    if_neg (ha 3 (by decide)), if_neg (ha 4 (by decide)), if_neg (ha 5 (by decide)), if_neg (ha 6 (by decide)),
    if_neg (ha 7 (by decide)), if_neg (ha 8 (by decide))]

/-- R212: the nine bytes of the frame take SP nine down, modulo 256. -/
theorem State.pushContext_sp_toNat : (s.pushByte b).pushContext.sp.toNat = (s.sp.toNat + 247) % 256 := by
  have hsp : (s.pushByte b).pushContext.sp = (s.pushByte b).sp - BitVec.ofNat 8 8 := State.pushContext_reg (s.pushByte b) 7
  rw [hsp, toNat_sub_const _ (by decide), State.pushByte_sp_toNat]
  omega

end

/-! ## An entry where PC fits a cell (R211) -/

section

variable (i : Fin 8) (s : State)

/-- The state of an entry whose frame is pushed and whose PC is not yet set (R211). -/
def State.entryFrame : State := (((s.setIe false).clearPending i).pushByte (BitVec.ofNat 8 s.pc)).pushContext

/-- R211, R57: PC is what the line's vector holds once the frame is pushed. -/
theorem interruptEntry_of_pc_le (hpc : s.pc ≤ 0xFF) : interruptEntry i s =
    (s.entryFrame i).setPc ((s.entryFrame i).mem.read (0xF8 + i.val)).toNat := by
  rcases interruptEntry_cases s i with ⟨-, u, hu, e⟩ | ⟨hpc', -⟩
  · rw [e, State.afterRead_cell _ (vectorSlot_cell i), State.peek_cell _ (vectorSlot_cell i), vectorSlot_toNat, hu,
      State.entryFrame]
  · omega

@[simp] theorem State.entryFrame_run : (s.entryFrame i).run = s.run := by simp [State.entryFrame]

@[simp] theorem State.entryFrame_draws : (s.entryFrame i).draws = s.draws := by simp [State.entryFrame]

end

/-! ## The SP that IRET leaves, and what it pops where no read is a draw (R183) -/

section

variable (s : State)

@[simp] theorem State.iterate_afterPop_mem (n : Nat) : (State.afterPop^[n] s).mem = s.mem := by
  induction n with
  | zero => rfl
  | succ n ih => rw [Function.iterate_succ_apply', State.afterPop_mem, ih]

theorem State.popContext_sp_toNat : s.popContext.sp.toNat = (s.sp.toNat + 9) % 256 := by
  rw [State.popContext_sp, State.iterate_afterPop_sp_toNat]

/-- R54, R61: a pop whose cell is no draw cell answers the cell. -/
theorem State.popped_cell {k : Nat} (h : ¬ (0xF5 ≤ (s.sp.toNat + k) % 256 ∧ (s.sp.toNat + k) % 256 ≤ 0xF7)) :
    s.popped k = s.mem.read ((s.sp.toNat + k) % 256) := by
  rw [← State.iterate_afterPop_sp_toNat] at h ⊢
  have hcell : isScratch (State.afterPop^[k] s).sp = false := by rwa [Bool.eq_false_iff, Ne, isScratch_iff]
  rw [State.popped, State.popValue, State.peek_cell _ hcell, State.iterate_afterPop_mem]

end

/-! ## The statements -/

/-- Settles O45: the least line is the one that the check takes, and the entry to it clears its bit alone. -/
theorem interruptCheckTakesLowestLine : Obligations.InterruptCheckTakesLowestLine := by
  intro s hrun
  refine ⟨fun i hie hmask hpending hleast => ?_, fun hnone => ?_⟩
  · refine ⟨_, step_of_line hrun (activeLine_of_least hie hmask hpending hleast), rfl, fun j hj => ?_⟩
    have hji : j.val ≠ i.val := fun h => hj (Fin.ext h)
    rw [interruptEntry_pendingBit i (polled s) j.isLt, decide_eq_false hji, Bool.not_false, Bool.and_true]
  · exact step_of_no_line hrun (hnone.elim activeLine_of_ie_false activeLine_of_none_pending)

/-- Settles O46: an entry leaves IE = 0, so the check of the next cycle takes no line. -/
theorem entryCycleRunsNoInstruction : Obligations.EntryCycleRunsNoInstruction := by
  intro s hrun
  refine ⟨fun i hline => ⟨_, step_of_line hrun hline, rfl, fun ht => ?_⟩, step_of_no_line hrun⟩
  obtain ⟨-, -, -, hie, -⟩ := interruptEntry_rest (polled s) i
  have hno := activeLine_of_ie_false ((polled_ie _).trans hie)
  exact ⟨hno, step_of_no_line ht hno⟩

/-- Settles O48: the push of PC raises before it writes. -/
theorem interruptEntryPastTopFaults : Obligations.InterruptEntryPastTopFaults := by
  intro i s hpc
  refine ⟨_, interruptEntry_of_pc_gt i s hpc, rfl, rfl, s.clearPending_bit i, fun j hj => ?_, fun _ => rfl, rfl, rfl, rfl,
    rfl, rfl, rfl, rfl⟩
  exact State.clearPending_reg_ne s i j (by simpa using hj)

/-- Settles O47: the frame by the nine pushes of R211, the registers by those that an entry writes. -/
theorem interruptEntrySavesContext : Obligations.InterruptEntrySavesContext := by
  intro i s hpc
  obtain ⟨hfl, hout, hsame, hie, -⟩ := interruptEntry_rest s i
  have hentry := interruptEntry_of_pc_le i s hpc
  have hreg (j : RegIx) (hj : j ≠ 7) := interruptEntry_reg i s hj
  have hsp : ((s.setIe false).clearPending i).sp = s.sp := State.clearPending_reg_ne _ i 7 (by decide)
  have hmem : (interruptEntry i s).mem =
      (((s.setIe false).clearPending i).pushByte (BitVec.ofNat 8 s.pc)).pushContext.mem := by
    rw [hentry, State.setPc_mem, State.entryFrame]
  refine ⟨_, rfl, hie, fun k hk => interruptEntry_pendingBit i s hk, ?_, ?_, fun j hj => ?_, ?_, ?_, fun a ha => ?_,
    fun j hj => ?_, hfl, ?_, hout, ?_, hsame⟩
  · rw [hmem, ← hsp, State.pushContext_read_first, BitVec.toNat_ofNat]
    omega
  · rw [hmem, ← hsp, State.pushContext_read_fl]
    rfl
  · rw [hmem, ← hsp, State.pushContext_read_reg _ _ hj, hreg j hj]
    rfl
  · rw [hentry, State.setPc_sp, State.entryFrame, State.pushContext_sp_toNat, hsp]
  · rw [hentry, State.setPc_pc, State.setPc_mem]
  · rw [← hsp] at ha
    rw [hmem, State.pushContext_read_outside _ _ ha]
    rfl
  · obtain ⟨h6, h7⟩ : j ≠ 6 ∧ j ≠ 7 := by simpa using hj
    rw [hreg j h7, State.clearPending_reg_ne s i j h6]
  · rw [hentry, State.setPc_run, State.entryFrame_run]
  · rw [hentry, State.setPc_draws, State.entryFrame_draws]

/-- Settles O49: each of the nine pops answers the byte that the entry left in its cell, and SP goes nine up again. -/
theorem iretUndoesInterruptEntry : Obligations.IretUndoesInterruptEntry := by
  intro i s h hpc hw hcells hsp hframe
  obtain ⟨_, rfl, -, hbit, hsavedPc, hsavedFl, hsavedReg, hentrySp, -, -, hregs, -⟩ := interruptEntrySavesContext i s hpc
  have hspNat : h.sp.toNat = (s.sp.toNat + 247) % 256 := by rw [hsp, hentrySp]
  have hpopped (n : Nat) (hn : n < 9) :
      h.popped n = (interruptEntry i s).mem.read ((s.sp.toNat + 247 + n) % 256) := by
    have haddress : (h.sp.toNat + n) % 256 = (s.sp.toNat + 247 + n) % 256 := by rw [hspNat, Nat.mod_add_mod]
    rw [State.popped_cell h (by rw [haddress]; exact hcells n hn), haddress, hframe n hn]
  have hreg (j : RegIx) (hj : j ≠ 7) : h.popped (6 - j.val) = (interruptEntry i s).reg j := by
    have hj7 : j.val ≠ 7 := fun e => hj (Fin.ext e)
    rw [hpopped _ (by omega), ← hsavedReg j hj]
    congr 2
    omega
  have hspBack : h.popContext.sp = s.sp := by
    have hlt := s.sp.isLt
    refine BitVec.eq_of_toNat_eq ?_
    rw [State.popContext_sp_toNat, hspNat]
    omega
  refine ⟨_, exec_iret hw, ?_, ?_, fun j hj => ?_, fun k hk => ?_, rfl⟩
  · rw [State.setIe_pc, State.popContext_pc, hpopped 8 (by decide), ← hsavedPc]
  · rw [State.setIe_fl, State.popContext_fl, hpopped 7 (by decide), ← hsavedFl]
  · by_cases h7 : j = 7
    · rw [State.setIe_reg, h7]
      exact hspBack
    · rw [State.setIe_reg, State.popContext_reg h h7, hreg j h7, hregs j (by simpa [h7] using hj)]
  · rw [State.setIe_reg, State.popContext_reg h (by decide), hreg 6 (by decide), hbit k hk]

end Sys2Proof.Machine
end

section
/-! PROOF. The statements of reset and load (spec 70_reset_and_hazards): where the bytes of an image land (R241, R242), the
malformed line that raises ProgramLoadError (R242), and that no interrupt is taken while IM is 0 (R243). -/

namespace Sys2Proof.Machine

/-! ## Storing bytes from an address up -/

section

variable {a : Nat} (bytes : List Byte) (s : State)

/-- Storing bytes changes no field but memory. -/
theorem State.storeBytes_eq : s.storeBytes a bytes = { s with mem := (s.storeBytes a bytes).mem } := by
  induction bytes generalizing a s with
  | nil => rfl
  | cons v vs ih =>
    rw [State.storeBytes, ih]
    split <;> rfl

/-- Where the bytes stop below 0x100, byte j - a of them is in cell j, and a cell that they do not reach is left alone. -/
theorem State.storeBytes_read (h : a + bytes.length ≤ 0x100) (j : Nat) : (s.storeBytes a bytes).mem.read j =
    if a ≤ j then bytes.getD (j - a) (s.mem.read j) else s.mem.read j := by
  induction bytes generalizing a s with
  | nil => simp [State.storeBytes]
  | cons v vs ih =>
    rw [List.length_cons] at h
    have ha : (BitVec.ofNat 8 a).toNat = a := by rw [BitVec.toNat_ofNat]; omega
    rw [State.storeBytes, if_pos (by omega), ih _ (by omega), State.store_read, ha]
    obtain hlt | rfl | hgt := Nat.lt_trichotomy j a
    · rw [if_neg (by omega), if_neg (by omega), if_neg (by omega)]
    · rw [if_neg (by omega), if_pos rfl, if_pos le_rfl, Nat.sub_self, List.getD_cons_zero]
    · have hnext : j - a = j - (a + 1) + 1 := by omega
      rw [if_pos (by omega), if_neg (by omega), if_pos (by omega), hnext, List.getD_cons_succ]

end

/-! ## Loading an image (R241, R242) -/

/-- R242: the load port refuses an address or a byte that does not exist. -/
theorem writeMemory_eq_none {a v : Nat} {s : State} : writeMemory a v s = none ↔ 0xFF < a ∨ 0xFF < v := by
  simp only [writeMemory, ite_eq_right_iff, reduceCtorEq, imp_false]
  omega

section

variable (k : Nat) (s : State)

/-- R242: lines that are bytes, no more of them than there are cells, are stored from address k up, and the load goes on
after them. -/
theorem loadLines_bytes_append (bytes : List Byte) (rest : List (Option Nat)) (h : k + bytes.length ≤ 0x100) :
    loadLines k ((bytes.map fun v => some v.toNat) ++ rest) s =
      loadLines (k + bytes.length) rest (s.storeBytes k bytes) := by
  induction bytes generalizing k s with
  | nil => rfl
  | cons v vs ih =>
    rw [List.length_cons] at h ⊢
    have hk : k ≤ 0xFF := by omega
    have hwrite : writeMemory k v.toNat s = some (s.store (BitVec.ofNat 8 k) v) :=
      writeMemory_eq_some.2 ⟨⟨hk, by omega⟩, by rw [BitVec.ofNat_toNat, BitVec.setWidth_eq]⟩
    simp only [List.map_cons, List.cons_append, loadLines, Option.bind_some, hwrite, State.storeBytes, if_pos hk]
    rw [ih _ _ (by omega), Nat.add_assoc, Nat.add_comm 1]

/-- R242: a line that is no binary literal, or whose address or value does not exist, ends the load with its position. -/
theorem loadLines_malformed {line : Option Nat} (h : ∀ v, line = some v → 0xFF < k ∨ 0xFF < v) (rest : List (Option Nat)) :
    loadLines k (line :: rest) s = raise .programLoadError none (.position k) s := by
  have hnone : (line.bind fun v => writeMemory k v s) = none :=
    Option.bind_eq_none_iff.2 fun v hv => writeMemory_eq_none.2 (h v hv)
  rw [loadLines, hnone]

/-- R241, R242: a load writes memory and the run state, and no other field. -/
theorem loadLines_frame (image : List (Option Nat)) : ∃ m r, loadLines k image s = { s with mem := m, run := r } := by
  induction image generalizing k s with
  | nil => exact ⟨s.mem, s.run, rfl⟩
  | cons line rest ih =>
    unfold loadLines
    split
    next t e =>
      obtain ⟨v, -, hv⟩ := Option.bind_eq_some_iff.1 e
      obtain ⟨-, rfl⟩ := writeMemory_eq_some.1 hv
      exact ih _ _
    next => exact ⟨s.mem, _, rfl⟩

end

/-- R242: an image of at most 256 bytes leaves them stored from address 0 up. -/
theorem boot_bytes {image : List Byte} (h : image.length ≤ 0x100) :
    boot (image.map fun v => some v.toNat) = State.reset.storeBytes 0 image := by
  have hload := loadLines_bytes_append 0 State.reset image [] (by omega)
  rwa [List.append_nil] at hload

/-- Settles O2: the bytes are stored over a memory in which every cell reads as 0x00. -/
theorem bootLoadsImageFromZero : Obligations.BootLoadsImageFromZero := by
  intro image himage
  refine ⟨_, boot_bytes himage, fun k => ?_, State.storeBytes_wf image 0 Memory.nil_wf, State.storeBytes_eq image _⟩
  exact State.storeBytes_read image State.reset (by omega) k

/-- Settles O3: the bytes before the malformed line are stored, which leaves PC at 0, and the line raises. -/
theorem malformedImageRaisesLoadError : Obligations.MalformedImageRaisesLoadError := by
  intro good line rest hgood hline
  have hmalformed : ∀ v, line = some v → 0xFF < 0 + good.length ∨ 0xFF < v := fun v hv =>
    hline.imp (by omega) fun h => h v hv
  rw [boot, loadLines_bytes_append _ _ _ _ (by omega), loadLines_malformed _ _ hmalformed, raise_run, Nat.zero_add,
    State.storeBytes_eq]
  rfl

/-! ## No interrupt while IM is 0 (R243) -/

/-- R206, R207: the pending bits at a cycle's interrupt check are those before it and those of its sample. -/
theorem polled_pendingBit (s : State) {k : Nat} (hk : k < 8) : ((polled s).reg 6).getLsbD k =
    ((s.reg 6).getLsbD k || (s.sample.tick && decide (k = s.params.timerLine.val)) ||
      (s.sample.key.isSome && decide (k = s.params.keyLine.val))) := by
  obtain ⟨_, rfl, -, hbit, -⟩ := pollsStoreKeyAndSetPending s.sample s.takeSample
  exact hbit k hk

/-- R209, R243: with IM = 0 no line is taken, whatever the polls make pending. -/
theorem step_of_im_zero {s : State} (hrun : s.run = .running) (him : s.reg 5 = 0) :
    step s = runInstruction (polled s) := by
  obtain ⟨-, -, -, -, -, -, -, -, -, hreg⟩ := polled_fields s
  have him' : (polled s).reg 5 = 0 := (hreg 5 (by decide)).trans him
  exact step_of_no_line hrun (activeLine_of_none_pending (by rw [him']; exact BitVec.zero_and))

/-- Settles O60: a boot leaves IE, the registers and the sample count as at reset, so its first cycle takes the free sample 0
and, as every cycle with IM = 0, no line. -/
theorem noInterruptBeforeMaskIsSet : Obligations.NoInterruptBeforeMaskIsSet := by
  refine ⟨fun image hrun => ?_, fun s => step_of_im_zero⟩
  obtain ⟨m, r, hboot⟩ : ∃ m r, boot image = { State.reset with mem := m, run := r } := loadLines_frame 0 State.reset image
  have hreg (j : RegIx) : (boot image).reg j = State.reset.reg j := by rw [hboot]; rfl
  have him : (boot image).reg 5 = 0 := hreg 5
  have his : (boot image).reg 6 = 0 := hreg 6
  have hparams : (boot image).params = Params.defaults := by rw [hboot]; rfl
  have hsample : (boot image).sample = ⟨Config.keyDraw 0, Config.tickDraw 0⟩ := by rw [hboot]; rfl
  refine ⟨by rw [hboot]; rfl, him, his, step_of_im_zero hrun him, ?_, ?_⟩
  all_goals
    rw [polled_pendingBit _ (Fin.isLt _), his, hsample, hparams]
    simp [Params.defaults]

end Sys2Proof.Machine
end
